-- ==== Sys2Proof/Word.lean ====
section
/-! DEFINITION. The widths of the block's values (00_scope.md R8: every value is unsigned; 10_state.md R20). -/

namespace Sys2Proof

/-- A command word, a response's data field or a pulse descriptor: 32 bits (30_encoding.md R80, R83). -/
abbrev Word := BitVec 32

/-- A channel of a pixel, or a byte of the queue or of the checksum's input. -/
abbrev Byte := BitVec 8

/-- A pixel, red in 23:16, green in 15:8, blue in 7:0 (00_scope.md R8, 10_state.md R21). -/
abbrev Pixel := BitVec 24

/-- A pulse descriptor, high duration in 31:16, low duration in 15:0 (42_pulse_encoder.md R136). -/
abbrev Desc := BitVec 32

end Sys2Proof
end

