-- ==== Sys2Proof/Syntax.lean ====
section
/-! DEFINITION. The ports, the formats and the thirteen operations (30_encoding.md R81, R84, R86). -/

namespace Sys2Proof

/-- The two ports, one per outside agent (00_scope.md R7, 30_encoding.md R81). -/
inductive Port where
  /-- The main context. -/
  | M
  /-- The producer, the receive-interrupt context. -/
  | P
  deriving DecidableEq, Repr

/-- The six formats of a command word (30_encoding.md R84). -/
inductive Format where
  | H
  | X
  | I12
  | I16
  | B
  | Z
  deriving DecidableEq, Repr

/-- Why a word is no operation (30_encoding.md R82 steps 2 and 3, R87). Both raise `IllegalOp`. -/
inductive DecodeReject where
  /-- The operation code is 0x0, 0xE or 0xF. -/
  | unassignedOperation
  /-- A bit that the format of the operation marks reserved is 1. -/
  | reservedBit
  deriving DecidableEq, Repr

/-- The operations, one constructor per row of the opcode map (30_encoding.md R86). Operands that the rules use as
integers are numbers, with the width of their field a check of `Instr.wellFormed` (R85); channels and bytes, which the
rules take apart into bits, are bytes. -/
inductive Instr where
  /-- `HSV2RGB hue, sat, val` (41_colormath.md R118). -/
  | hsv2rgb (hue sat val : Nat)
  /-- `PXSET r, g, b` (41_colormath.md R119). -/
  | pxset (r g b : Byte)
  /-- `PIXWR idx` (42_pulse_encoder.md R131). -/
  | pixwr (idx : Nat)
  /-- `PIXRD idx` (42_pulse_encoder.md R132). -/
  | pixrd (idx : Nat)
  /-- `FILLALL` (42_pulse_encoder.md R140). -/
  | fillall
  /-- `FILLN k` (42_pulse_encoder.md R141). -/
  | filln (k : Nat)
  /-- `PULRD idx` (42_pulse_encoder.md R150). -/
  | pulrd (idx : Nat)
  /-- `CRCINIT` (43_checksum.md R163). -/
  | crcinit
  /-- `CRCUPD byte` (43_checksum.md R164). -/
  | crcupd (byte : Byte)
  /-- `CRCRD` (43_checksum.md R165). -/
  | crcrd
  /-- `QDEQ` (44_bytequeue.md R184). -/
  | qdeq
  /-- `QLEN` (44_bytequeue.md R187). -/
  | qlen
  /-- `QENQ byte` (44_bytequeue.md R181). -/
  | qenq (byte : Byte)
  deriving DecidableEq, Repr

end Sys2Proof
end

