-- ==== Sys2Proof/WellFormed.lean ====
section
/-! DEFINITION. Which instructions a command word can carry (30_encoding.md R84, R85): every number fits its field. -/

namespace Sys2Proof

/-- Every operand fits its field (30_encoding.md R84). Whether an index lies inside its space is no question of form: a
legal word with such an operand decodes and raises the operation's range fault (R88). -/
def Instr.wellFormed : Instr → Bool
  | .hsv2rgb hue sat val => decide (hue < 4096) && decide (sat < 256) && decide (val < 256)
  | .pxset _ _ _ => true
  | .pixwr idx => decide (idx < 4096)
  | .pixrd idx => decide (idx < 4096)
  | .fillall => true
  | .filln k => decide (k < 4096)
  | .pulrd idx => decide (idx < 65536)
  | .crcinit => true
  | .crcupd _ => true
  | .crcrd => true
  | .qdeq => true
  | .qlen => true
  | .qenq _ => true

end Sys2Proof
end

