-- ==== Sys2Proof/Decode.lean ====
section
/-! DEFINITION. The decoder, total on all 2^32 words and rejecting by name (30_encoding.md R80 to R89), the rows of the
opcode map (R86), the encoder, and the assembler's line (R90). -/

namespace Sys2Proof

/-- The `len` bits of a word from bit `lo` up, as an unsigned integer: `w[lo+len-1 : lo]` (00_scope.md R8). -/
def field (w : Word) (lo len : Nat) : Nat := w.toNat / 2 ^ lo % 2 ^ len

/-- The operation code, `cmd[31:28]` (30_encoding.md R80). -/
def opField (w : Word) : Nat := field w 28 4

/-- The reserved bits of a format are `cmd[27:lo]` for this `lo` (30_encoding.md R84; format H has none). -/
def reservedFrom : Format → Nat
  | .H => 28
  | .X => 24
  | .I12 => 12
  | .I16 => 16
  | .B => 8
  | .Z => 0

/-- All the bits a format marks reserved are 0 (30_encoding.md R82 step 3). -/
def reservedClear (f : Format) (w : Word) : Bool :=
  field w (reservedFrom f) (28 - reservedFrom f) == 0

/-- A byte-wide field as a byte. -/
def byteField (w : Word) (lo : Nat) : Byte := BitVec.ofNat 8 (field w lo 8)

/-- The row of the opcode map for an operation code: its format, and the instruction whose operands are the word's fields
(30_encoding.md R84, R86); none for the codes 0x0, 0xE and 0xF (R87). -/
def rowOf (w : Word) : Nat → Option (Format × Instr)
  | 0x1 => some (.H, .hsv2rgb (field w 16 12) (field w 8 8) (field w 0 8))
  | 0x2 => some (.X, .pxset (byteField w 16) (byteField w 8) (byteField w 0))
  | 0x3 => some (.I12, .pixwr (field w 0 12))
  | 0x4 => some (.I12, .pixrd (field w 0 12))
  | 0x5 => some (.Z, .fillall)
  | 0x6 => some (.I12, .filln (field w 0 12))
  | 0x7 => some (.I16, .pulrd (field w 0 16))
  | 0x8 => some (.Z, .crcinit)
  | 0x9 => some (.B, .crcupd (byteField w 0))
  | 0xA => some (.Z, .crcrd)
  | 0xB => some (.Z, .qdeq)
  | 0xC => some (.Z, .qlen)
  | 0xD => some (.B, .qenq (byteField w 0))
  | _ => none

/-- The decoder (30_encoding.md R82 steps 2 and 3, R87): first the operation code, then the reserved bits of its format. -/
def decode (w : Word) : Except DecodeReject Instr :=
  match rowOf w (opField w) with
  | none => .error .unassignedOperation
  | some row => if reservedClear row.1 w then .ok row.2 else .error .reservedBit

/-- The operation code of an instruction (30_encoding.md R86, column "op"). -/
def Instr.op : Instr → Nat
  | .hsv2rgb _ _ _ => 0x1
  | .pxset _ _ _ => 0x2
  | .pixwr _ => 0x3
  | .pixrd _ => 0x4
  | .fillall => 0x5
  | .filln _ => 0x6
  | .pulrd _ => 0x7
  | .crcinit => 0x8
  | .crcupd _ => 0x9
  | .crcrd => 0xA
  | .qdeq => 0xB
  | .qlen => 0xC
  | .qenq _ => 0xD

/-- The operands of an instruction in their fields, `cmd[27:0]` (30_encoding.md R84). -/
def Instr.operandBits : Instr → Nat
  | .hsv2rgb hue sat val => hue * 2 ^ 16 + sat * 2 ^ 8 + val
  | .pxset r g b => r.toNat * 2 ^ 16 + g.toNat * 2 ^ 8 + b.toNat
  | .pixwr idx => idx
  | .pixrd idx => idx
  | .fillall => 0
  | .filln k => k
  | .pulrd idx => idx
  | .crcinit => 0
  | .crcupd byte => byte.toNat
  | .crcrd => 0
  | .qdeq => 0
  | .qlen => 0
  | .qenq byte => byte.toNat

/-- The encoder: the word of a well-formed instruction (30_encoding.md R80, R84). -/
def encode (i : Instr) : Word := BitVec.ofNat 32 (i.op * 2 ^ 28 + i.operandBits)

/-- The format of an instruction (30_encoding.md R86, column "format"). -/
def Instr.format : Instr → Format
  | .hsv2rgb _ _ _ => .H
  | .pxset _ _ _ => .X
  | .pixwr _ => .I12
  | .pixrd _ => .I12
  | .fillall => .Z
  | .filln _ => .I12
  | .pulrd _ => .I16
  | .crcinit => .Z
  | .crcupd _ => .B
  | .crcrd => .Z
  | .qdeq => .Z
  | .qlen => .Z
  | .qenq _ => .B

/-- The port that owns an operation (30_encoding.md R81; R86, column "port"). -/
def Instr.owner : Instr → Port
  | .hsv2rgb _ _ _ => .M
  | .pxset _ _ _ => .M
  | .pixwr _ => .M
  | .pixrd _ => .M
  | .fillall => .M
  | .filln _ => .M
  | .pulrd _ => .M
  | .crcinit => .M
  | .crcupd _ => .M
  | .crcrd => .M
  | .qdeq => .M
  | .qlen => .M
  | .qenq _ => .P

/-- The column "match" of the opcode map (30_encoding.md R86). -/
def Instr.matchWord : Instr → Word
  | .hsv2rgb _ _ _ => 0x10000000
  | .pxset _ _ _ => 0x20000000
  | .pixwr _ => 0x30000000
  | .pixrd _ => 0x40000000
  | .fillall => 0x50000000
  | .filln _ => 0x60000000
  | .pulrd _ => 0x70000000
  | .crcinit => 0x80000000
  | .crcupd _ => 0x90000000
  | .crcrd => 0xA0000000
  | .qdeq => 0xB0000000
  | .qlen => 0xC0000000
  | .qenq _ => 0xD0000000

/-- The column "mask" of the opcode map (30_encoding.md R86). -/
def Instr.maskWord : Instr → Word
  | .hsv2rgb _ _ _ => 0xF0000000
  | .pxset _ _ _ => 0xFF000000
  | .pixwr _ => 0xFFFFF000
  | .pixrd _ => 0xFFFFF000
  | .fillall => 0xFFFFFFFF
  | .filln _ => 0xFFFFF000
  | .pulrd _ => 0xFFFF0000
  | .crcinit => 0xFFFFFFFF
  | .crcupd _ => 0xFFFFFF00
  | .crcrd => 0xFFFFFFFF
  | .qdeq => 0xFFFFFFFF
  | .qlen => 0xFFFFFFFF
  | .qenq _ => 0xFFFFFF00

/-- The mnemonic (30_encoding.md R86, R90). -/
def Instr.mnemonic : Instr → String
  | .hsv2rgb _ _ _ => "HSV2RGB"
  | .pxset _ _ _ => "PXSET"
  | .pixwr _ => "PIXWR"
  | .pixrd _ => "PIXRD"
  | .fillall => "FILLALL"
  | .filln _ => "FILLN"
  | .pulrd _ => "PULRD"
  | .crcinit => "CRCINIT"
  | .crcupd _ => "CRCUPD"
  | .crcrd => "CRCRD"
  | .qdeq => "QDEQ"
  | .qlen => "QLEN"
  | .qenq _ => "QENQ"

/-- The operands in the order of their fields, from the most significant down (30_encoding.md R90). -/
def Instr.operands : Instr → List Nat
  | .hsv2rgb hue sat val => [hue, sat, val]
  | .pxset r g b => [r.toNat, g.toNat, b.toNat]
  | .pixwr idx => [idx]
  | .pixrd idx => [idx]
  | .fillall => []
  | .filln k => [k]
  | .pulrd idx => [idx]
  | .crcinit => []
  | .crcupd byte => [byte.toNat]
  | .crcrd => []
  | .qdeq => []
  | .qlen => []
  | .qenq byte => [byte.toNat]

/-- The assembler's line for an instruction, its numbers in decimal (30_encoding.md R90). -/
def Instr.assembly (i : Instr) : String :=
  if i.operands.isEmpty then i.mnemonic
  else i.mnemonic ++ " " ++ String.intercalate ", " (i.operands.map (fun n => toString n))

/-- The port on which a word stands where no port is named: port P for the code of `QENQ`, port M for everything else
(30_encoding.md R90; log entry 12). -/
def defaultPort (w : Word) : Port := if opField w = 0xD then .P else .M

/-- The word whose `nbits` low bits are those of `w` and whose other bits are 0. -/
def tableWord (nbits w : Nat) : Word := BitVec.ofNat 32 (w % 2 ^ nbits)

/-- What the decoder reads from the `nbits` bits of `w`, numbered as spec/opcode_table.json numbers them: a command is one
32-bit word (30_encoding.md R80), so bits that do not fit it are no command. -/
def decodeTableWord (nbits w : Nat) : Option Instr :=
  if w % 2 ^ nbits < 2 ^ 32 then (decode (tableWord nbits w)).toOption else none

end Sys2Proof
end

