-- ==== Sys2Proof/Config.lean ====
section
/-! DEFINITION. What is fixed for one block: the build-time parameters of 00_scope.md R5, and the values the spec leaves
open (93_implementation_defined.md U1, U3, U7), each a constant with no body, so that a claim is true whatever it is. -/

namespace Sys2Proof

/-- The build-time parameters (00_scope.md R5), under the spec's own names. `PLEN` is `24*N + 1` and `HUE_W` is fixed by
the command format (R6), so neither is a field. -/
structure Config where
  /-- Number of pixels in PIX. -/
  N : Nat
  /-- High duration of a logical-0 pulse, in ticks. -/
  T0H : Nat
  /-- Low duration of a logical-0 pulse, in ticks. -/
  T0L : Nat
  /-- High duration of a logical-1 pulse, in ticks. -/
  T1H : Nat
  /-- Low duration of a logical-1 pulse, in ticks. -/
  T1L : Nat
  /-- The largest number of bytes unit Q holds. -/
  QCAP : Nat
  deriving DecidableEq, Repr

/-- The values this hardware takes (00_scope.md R5, column "default"). -/
def Config.default : Config :=
  { N := 280, T0H := 32, T0L := 68, T1H := 64, T1L := 48, QCAP := 16384 }

/-- The number of elements of PULSE (00_scope.md R5). -/
def Config.PLEN (c : Config) : Nat := 24 * c.N + 1

/-- The width of the hue operand, fixed by the command format (00_scope.md R5, R6). -/
def Config.HUE_W : Nat := 12

/-- The tick frequency: OPEN, and no rule reads it (00_scope.md R5, 93_implementation_defined.md U3; log entry 16). -/
opaque Config.TICK_HZ : Nat

/-- FREE VALUE: the n-th draw read from PX while nothing has written it since reset (U1; log entry 7). -/
opaque Config.unwrittenPx : Nat → Pixel

/-- FREE VALUE: the n-th draw read from an element of PIX not written since reset (U1; log entry 7). -/
opaque Config.unwrittenPix : Nat → Pixel

/-- FREE VALUE: the n-th draw read from an element of PULSE not written since reset (U1; log entry 7). -/
opaque Config.unwrittenPulse : Nat → Desc

/-- FREE VALUE: the n-th draw read from an element of QMEM not written since reset (U1; log entry 7). No state that
meets `Safety.Inv` reaches it (10_state.md R32). -/
opaque Config.unwrittenQmem : Nat → Byte

/-- FREE VALUE: whether the command on port P is taken before the one on port M presented in the same clock period
(20_memory.md R59, 93_implementation_defined.md U7; log entry 4). -/
opaque Config.portPFirst : Nat → Bool

end Sys2Proof
end

