-- ==== Sys2Proof/Machine/State.lean ====
section
/-! DEFINITION. The state of the block (10_state.md R20 to R34), the response record (30_encoding.md R83), what the outside
agents present (20_memory.md R58, R59; 70_reset_and_hazards.md R231), and the state after reset (10_state.md R40). -/

namespace Sys2Proof.Machine

/-- One address space (20_memory.md R50): the elements written since reset, as pairs of index and value, their indices
strictly rising. An element that is not listed has not been written since reset and holds no stored value: a read of it is
a free value (93_implementation_defined.md U1; log entries 7 and 9). `Memory 8` is `List Host.Cell`. -/
abbrev Memory (width : Nat) := List (Nat × BitVec width)

/-- The five causes a fault can latch (60_exceptions.md R201, codes 1 to 5). -/
inductive Cause where
  /-- The word is no operation. -/
  | illegalOp
  /-- The operation belongs to the other port. -/
  | illegalPort
  /-- `PIXWR`, `PIXRD` with `idx >= N`. -/
  | pixRange
  /-- `FILLN` with `k > N`. -/
  | fillRange
  /-- `PULRD` with `idx > 24*N`. -/
  | pulseRange
  deriving DecidableEq, Repr

/-- The response record `{fault, flag, data}` (30_encoding.md R83). -/
structure Response where
  fault : BitVec 4
  flag : Bool
  data : Word
  deriving DecidableEq, Repr

/-- One thing the outside presents (20_memory.md R58, R59; 70_reset_and_hazards.md R231; log entry 3). -/
inductive Input where
  /-- A command word on one port. -/
  | command (p : Port) (w : Word)
  /-- A command word on each port in the same clock period: taken one after the other, which first is not specified (R59). -/
  | pair (onM onP : Word)
  /-- Reset, with the commands presented while it is active: they get no response and have no effect (R231). -/
  | reset (onM onP : Option Word)
  deriving DecidableEq, Repr

/-- What the block takes in one step. -/
inductive Taken where
  /-- Nothing is presented. -/
  | nothing
  /-- Reset. -/
  | reset
  /-- One command word on one port. -/
  | command (p : Port) (w : Word)
  deriving DecidableEq, Repr

/-- The state of the block, then the model's own fields. -/
structure State where
  /-- The build-time parameters; no step changes them (00_scope.md R5; log entry 1). -/
  cfg : Config
  /-- The pixel register (10_state.md R21). -/
  px : Pixel
  /-- Whether an operation has written PX since reset; while false, a read of PX is a free value (U1; log entry 8). -/
  pxWritten : Bool
  /-- The checksum register (10_state.md R23). -/
  crc : BitVec 16
  /-- The queue write pointer (10_state.md R24). -/
  qwr : Nat
  /-- The queue read pointer (10_state.md R25). -/
  qrd : Nat
  /-- The cause of the first fault since reset, 0 for none (10_state.md R28). -/
  fault : BitVec 4
  /-- The pixel sequence (10_state.md R30). -/
  pix : Memory 24
  /-- The pulse buffer (10_state.md R31). -/
  pulse : Memory 32
  /-- The queue storage (10_state.md R32). -/
  qmem : Memory 8
  /-- The port on which the command now performed was presented (30_encoding.md R80; log entry 6). -/
  port : Port
  /-- The latest response on port M since reset (30_encoding.md R83; log entry 5). -/
  respM : Option Response
  /-- The latest response on port P since reset (30_encoding.md R83; log entry 5). -/
  respP : Option Response
  /-- What the outside presents from now on, oldest first (log entry 3). -/
  inbox : List Input
  /-- How many free values have been used (log entry 7). -/
  draws : Nat
  deriving DecidableEq, Repr

/-- The machine stops with no fault: every fault of 60_exceptions.md R201 is a response and a latched cause, so a next state
(R200, R204). Nobody raises one (log entry 18). -/
inductive Fault where
  deriving DecidableEq, Repr

/-- Why the model gives no meaning. -/
inductive Refusal where
  /-- Raised by an arm of `exec` whose instruction has no meaning yet; safe. No arm raises it. -/
  | notModelled (mnemonic : String)
  /-- Raised by every step of a block whose parameters break 00_scope.md R6; safe. The spec asks for it
  (93_implementation_defined.md U4: "`refuse` (the model gives it no meaning)"; log entry 2). -/
  | parametersOutsideR6
  deriving DecidableEq, Repr

/-- The answer of an operation or a step. -/
abbrev Result := Host.Outcome State Fault Refusal

/-- The state right after reset (10_state.md R40, 70_reset_and_hazards.md R230). CRC, QWR, QRD and FAULT are the spec's;
PX has the value of log entry 8, which no read returns; no element of an array is written; the rest are the model's own. -/
def State.reset : State :=
  { cfg := Config.default
    px := 0
    pxWritten := false
    crc := 0xFFFF
    qwr := 0
    qrd := 0
    fault := 0
    pix := []
    pulse := []
    qmem := []
    port := .M
    respM := none
    respP := none
    inbox := []
    draws := 0 }

end Sys2Proof.Machine
end

