-- ==== Sys2Proof/Machine/Ops.lean ====
section
/-! DEFINITION. The named operations on memory, registers and responses, raising a fault and the checks every operation
makes first (00_scope.md R10; 30_encoding.md R82; 60_exceptions.md R200 to R204). -/

namespace Sys2Proof.Machine

/-! ## Memory -/

/-- The stored value of element `i`, if something has written it since reset (20_memory.md R50). -/
def Memory.read {width : Nat} : Memory width → Nat → Option (BitVec width)
  | [], _ => none
  | (j, v) :: rest, i => if i = j then some v else Memory.read rest i

/-- Consecutive elements from index `i` on. -/
def elementsFrom {width : Nat} : Nat → List (BitVec width) → Memory width
  | _, [] => []
  | i, v :: vs => (i, v) :: elementsFrom (i + 1) vs

/-- `MemWrite(S:i, n, v)`: the elements `i .. i+n-1` are written, every other one stays (00_scope.md R10). -/
def Memory.write {width : Nat} (m : Memory width) (i : Nat) (vs : List (BitVec width)) : Memory width :=
  m.filter (fun e => decide (e.1 < i)) ++ elementsFrom i vs ++ m.filter (fun e => decide (i + vs.length ≤ e.1))

/-- The indices rise strictly, from `lo` on. -/
def Memory.risingFrom {width : Nat} : Nat → Memory width → Bool
  | _, [] => true
  | lo, (j, _) :: rest => decide (lo ≤ j) && Memory.risingFrom (j + 1) rest

/-- The canonical form of a space of `size` elements: indices strictly rising, each inside the space. No entry can equal
what an unlisted element reads as, since an unlisted element holds no stored value. -/
def Memory.wf {width : Nat} (size : Nat) (m : Memory width) : Bool :=
  Memory.risingFrom 0 m && m.all (fun e => decide (e.1 < size))

/-! ## Registers -/

/-- `PX <- v` (10_state.md R21). -/
def State.setPx (s : State) (v : Pixel) : State := { s with px := v, pxWritten := true }

/-- `CRC <- v` (10_state.md R23). -/
def State.setCrc (s : State) (v : BitVec 16) : State := { s with crc := v }

/-- `QWR <- v` (10_state.md R24). -/
def State.setQwr (s : State) (v : Nat) : State := { s with qwr := v }

/-- `QRD <- v` (10_state.md R25). -/
def State.setQrd (s : State) (v : Nat) : State := { s with qrd := v }

/-- `FAULT <- v` (10_state.md R28). -/
def State.setFault (s : State) (v : BitVec 4) : State := { s with fault := v }

/-- `PIX[i], PIX[i+1], ... <- vs` (10_state.md R30). -/
def State.writePix (s : State) (i : Nat) (vs : List Pixel) : State := { s with pix := s.pix.write i vs }

/-- `PULSE[i], PULSE[i+1], ... <- vs` (10_state.md R31). -/
def State.writePulse (s : State) (i : Nat) (vs : List Desc) : State := { s with pulse := s.pulse.write i vs }

/-- `QMEM[i], QMEM[i+1], ... <- vs` (10_state.md R32). -/
def State.writeQmem (s : State) (i : Nat) (vs : List Byte) : State := { s with qmem := s.qmem.write i vs }

/-- The command now performed was presented on port `p`. -/
def State.setPort (s : State) (p : Port) : State := { s with port := p }

/-- What the outside presents from now on. -/
def State.setInbox (s : State) (l : List Input) : State := { s with inbox := l }

/-- `n` free values have been used so far. -/
def State.setDraws (s : State) (n : Nat) : State := { s with draws := n }

/-- The response of the command now performed, seen on its own port only (30_encoding.md R83). -/
def State.respond (s : State) (r : Response) : State :=
  { s with
    respM := if s.port = .M then some r else s.respM
    respP := if s.port = .P then some r else s.respP }

/-! ## Responses and faults -/

/-- The code of a cause (60_exceptions.md R201). -/
def Cause.code : Cause → BitVec 4
  | .illegalOp => 1
  | .illegalPort => 2
  | .pixRange => 3
  | .fillRange => 4
  | .pulseRange => 5

/-- The response of an operation that was performed, `resp(flag, data)` (00_scope.md R10, 30_encoding.md R83). -/
def performedResponse (flag : Bool) (data : Word) : Response := { fault := 0, flag := flag, data := data }

/-- The response of a command that raised a fault (60_exceptions.md R200 (3)). -/
def faultResponse (c : Cause) : Response := { fault := c.code, flag := false, data := 0 }

/-- The response of a halted block to every command (60_exceptions.md R204). -/
def haltedResponse : Response := { fault := 6, flag := false, data := 0 }

/-- A response as one 37-bit value, `{fault, flag, data}`, `fault` most significant (30_encoding.md R83). -/
def Response.bits (r : Response) : BitVec 37 := r.fault ++ BitVec.ofBool r.flag ++ r.data

/-- The end of an operation that was performed: `resp(flag, data)`. -/
def performed (flag : Bool) (data : Word) (s : State) : Result := .next (s.respond (performedResponse flag data))

/-- `raise c`: the cause is latched, the response carries it, nothing else is written (60_exceptions.md R200, R202). From
the next step on the block is halted, since `FAULT` is no longer 0. There is no return from it but reset (R204, R205). -/
def raise (c : Cause) (s : State) : Result := .next ((s.setFault c.code).respond (faultResponse c))

/-! ## The checks before an operation -/

/-- The constraints a parameter set must meet for the rules to hold (00_scope.md R6). -/
def parametersValid (c : Config) : Bool :=
  decide (1 ≤ c.N ∧ c.N ≤ 2730 ∧
    1 ≤ c.T0H ∧ c.T0H ≤ 65535 ∧ 1 ≤ c.T0L ∧ c.T0L ≤ 65535 ∧
    1 ≤ c.T1H ∧ c.T1H ≤ 65535 ∧ 1 ≤ c.T1L ∧ c.T1L ≤ 65535 ∧
    (c.T0H, c.T0L) ≠ (c.T1H, c.T1L) ∧
    1 ≤ c.QCAP ∧ c.QCAP ≤ 2 ^ 30)

/-- A block whose parameters break R6 has no meaning (93_implementation_defined.md U4; log entry 2). -/
def withParameters (k : State → Result) (s : State) : Result :=
  if parametersValid s.cfg then k s else .refused .parametersOutsideR6

/-- The first check of a command: a halted block answers `Halted` and changes nothing (30_encoding.md R82 step 1,
60_exceptions.md R204). -/
def unlessHalted (k : State → Result) (s : State) : Result :=
  withParameters (fun s => if s.fault = 0 then k s else .next (s.respond haltedResponse)) s

/-- The checks every legal operation makes first: halted, then the port that owns it (30_encoding.md R82 steps 1 and 4;
the word's legality, steps 2 and 3, is the decoder's). -/
def onOwnPort (owner : Port) (k : State → Result) (s : State) : Result :=
  unlessHalted (fun s => if s.port = owner then k s else raise .illegalPort s) s

/-- A word that is no operation: `IllegalOp`, unless the block is halted (30_encoding.md R82 steps 1 to 3, R87). Both
reasons raise the same fault. -/
def rejectWord (_why : DecodeReject) (s : State) : Result := unlessHalted (raise .illegalOp) s

/-! ## Reset and the inputs -/

/-- Reset (10_state.md R40, 70_reset_and_hazards.md R230, R231): every register and array as after reset, the parameters
and the coming inputs as they were. The counter of free values goes on, so that what an element reads as after this reset
has nothing to do with what it read as before (93_implementation_defined.md U13; log entry 11). -/
def resetBlock (s : State) : State :=
  { State.reset with cfg := s.cfg, inbox := s.inbox, draws := s.draws }

/-- The next thing the block takes, and the state without it. Of two commands presented in the same clock period one is
taken now and the other stays first in line; which one is a free value (20_memory.md R59, 60_exceptions.md R206). -/
def takeInput (s : State) : Taken × State :=
  match s.inbox with
  | [] => (.nothing, s)
  | .command p w :: rest => (.command p w, s.setInbox rest)
  | .pair onM onP :: rest =>
    if Config.portPFirst s.draws then (.command .P onP, (s.setInbox (.command .M onM :: rest)).setDraws (s.draws + 1))
    else (.command .M onM, (s.setInbox (.command .P onP :: rest)).setDraws (s.draws + 1))
  | .reset _ _ :: rest => (.reset, s.setInbox rest)

end Sys2Proof.Machine
end

