-- ==== Sys2Proof/Machine/Operands.lean ====
section
/-! DEFINITION. Reading operands: the fields of a pixel, zero extension, and reading a register or an element that may not
have been written since reset (00_scope.md R8, R10; 93_implementation_defined.md U1). -/

namespace Sys2Proof.Machine

/-- `{r, g, b}`, red most significant (00_scope.md R8). -/
def pixelOf (r g b : Byte) : Pixel := r ++ g ++ b

/-- The red channel, `px[23:16]` (10_state.md R21). -/
def redOf (px : Pixel) : Byte := px.extractLsb' 16 8

/-- The green channel, `px[15:8]` (10_state.md R21). -/
def greenOf (px : Pixel) : Byte := px.extractLsb' 8 8

/-- The blue channel, `px[7:0]` (10_state.md R21). -/
def blueOf (px : Pixel) : Byte := px.extractLsb' 0 8

/-- `zext_32(v)` (00_scope.md R10). -/
def zext32 {width : Nat} (v : BitVec width) : Word := v.setWidth 32

/-- A stored value, or, where nothing has been stored since reset, the next free value: the value, and how many free
values have been used then (93_implementation_defined.md U1; log entry 7). -/
def storedOrDraw {width : Nat} (stored : Option (BitVec width)) (free : Nat → BitVec width) (used : Nat) :
    BitVec width × Nat :=
  match stored with
  | some v => (v, used)
  | none => (free used, used + 1)

/-- The stored value of PX, once an operation has written it since reset (log entry 8). -/
def storedPx (s : State) : Option Pixel := if s.pxWritten then some s.px else none

/-- Reading PX: the stored value, or a free value, a new one at each read (93_implementation_defined.md U1). -/
def readPx (s : State) : Pixel × State :=
  let got := storedOrDraw (storedPx s) Config.unwrittenPx s.draws
  (got.1, s.setDraws got.2)

/-- Reading one element of PIX (U1). -/
def readPix (i : Nat) (s : State) : Pixel × State :=
  let got := storedOrDraw (s.pix.read i) Config.unwrittenPix s.draws
  (got.1, s.setDraws got.2)

/-- The `n` elements of a space from `i` on, in the order of their indices, each stored or free. -/
def storedOrDrawRun {width : Nat} (m : Memory width) (free : Nat → BitVec width) :
    Nat → Nat → Nat → List (BitVec width) × Nat
  | _, 0, used => ([], used)
  | i, n + 1, used =>
    let first := storedOrDraw (m.read i) free used
    let others := storedOrDrawRun m free (i + 1) n first.2
    (first.1 :: others.1, others.2)

/-- Reading the `n` elements of PIX from `i` on: `MemRead(PIX:i, n)` (00_scope.md R10; U1). -/
def readPixRun (i n : Nat) (s : State) : List Pixel × State :=
  let got := storedOrDrawRun s.pix Config.unwrittenPix i n s.draws
  (got.1, s.setDraws got.2)

/-- Reading one element of PULSE (U1). -/
def readPulse (i : Nat) (s : State) : Desc × State :=
  let got := storedOrDraw (s.pulse.read i) Config.unwrittenPulse s.draws
  (got.1, s.setDraws got.2)

/-- Reading one element of QMEM (U1; never unwritten under `Safety.Inv`, 10_state.md R32). -/
def readQmem (i : Nat) (s : State) : Byte × State :=
  let got := storedOrDraw (s.qmem.read i) Config.unwrittenQmem s.draws
  (got.1, s.setDraws got.2)

/-! ## The queue's derived values -/

/-- `QLENV = (QWR - QRD) mod (2*QCAP)`, the subtraction over the integers (10_state.md R26, 44_bytequeue.md R191). -/
def occupancy (s : State) : Nat := (((s.qwr : Int) - (s.qrd : Int)) % ((2 * s.cfg.QCAP : Nat) : Int)).toNat

/-- The queue is full (10_state.md R26, 44_bytequeue.md R181). -/
def queueFull (s : State) : Bool := occupancy s == s.cfg.QCAP

/-- The queue is empty (10_state.md R26, 44_bytequeue.md R184). -/
def queueEmpty (s : State) : Bool := s.qwr == s.qrd

/-- The slot a pointer designates (10_state.md R24, R25). -/
def slotOf (c : Config) (pointer : Nat) : Nat := pointer % c.QCAP

/-- The next value of a pointer (44_bytequeue.md R181, R184). -/
def nextPointer (c : Config) (pointer : Nat) : Nat := (pointer + 1) % (2 * c.QCAP)

end Sys2Proof.Machine
end

