-- ==== Sys2Proof/Machine/Flags.lean ====
section
/-! DEFINITION. The `flag` field of the response, the block's only flag (10_state.md R27). -/

namespace Sys2Proof.Machine

/-- The flag of every operation but `QENQ` and `QDEQ` (10_state.md R27). -/
def plainFlag : Bool := false

/-- The flag of `QENQ`: the byte is stored (10_state.md R27, 44_bytequeue.md R181). -/
def acceptedFlag (s : State) : Bool := !queueFull s

/-- The flag of `QDEQ`: a byte is returned (10_state.md R27, 44_bytequeue.md R184). -/
def returnedFlag (s : State) : Bool := !queueEmpty s

end Sys2Proof.Machine
end

