-- ==== Sys2Proof/Machine/ByteQueue.lean ====
section
/-! DEFINITION. Unit Q, the ring buffer (44_bytequeue.md R180 to R191): the operations QENQ, QDEQ and QLEN. -/

namespace Sys2Proof.Machine

/-- Storing a byte at the tail (44_bytequeue.md R181, the not-full branch). -/
def pushByte (byte : Byte) (s : State) : State :=
  (s.writeQmem (slotOf s.cfg s.qwr) [byte]).setQwr (nextPointer s.cfg s.qwr)

/-- Removing the oldest byte: the byte, and the state with the read pointer moved on; the slot is not cleared
(44_bytequeue.md R184, the not-empty branch). -/
def popByte (s : State) : Byte × State :=
  let got := readQmem (slotOf s.cfg s.qrd) s
  (got.1, got.2.setQrd (nextPointer s.cfg s.qrd))

/-- `QENQ byte` (44_bytequeue.md R181): a byte that meets a full queue is dropped, which is no fault. -/
def execQenq (byte : Byte) (s : State) : Result :=
  onOwnPort .P (fun s => performed (acceptedFlag s) 0 (if queueFull s then s else pushByte byte s)) s

/-- `QDEQ` (44_bytequeue.md R184). -/
def execQdeq (s : State) : Result :=
  onOwnPort .M (fun s => if queueEmpty s then performed (returnedFlag s) 0 s
    else performed (returnedFlag s) (zext32 (popByte s).1) (popByte s).2) s

/-- `QLEN` (44_bytequeue.md R187). -/
def execQlen (s : State) : Result := onOwnPort .M (fun s => performed plainFlag (BitVec.ofNat 32 (occupancy s)) s) s

end Sys2Proof.Machine
end

