-- ==== Sys2Proof/Machine/Checksum.lean ====
section
/-! DEFINITION. Unit CRC: the byte step (43_checksum.md R161, R162), the checksum of a sequence (R166) and the operations
CRCINIT, CRCUPD and CRCRD. -/

namespace Sys2Proof.Machine

/-- The initial value of the register (43_checksum.md R161). -/
def crcInitial : BitVec 16 := 0xFFFF

/-- The polynomial (43_checksum.md R161). -/
def crcPolynomial : BitVec 16 := 0x1021

/-- One iteration: the top bit is tested before the shift, the polynomial XORed in after it (43_checksum.md R162). -/
def crcShift (t : BitVec 16) : BitVec 16 := if t.msb then (t <<< 1) ^^^ crcPolynomial else t <<< 1

/-- `n` iterations. -/
def crcShifts : Nat → BitVec 16 → BitVec 16
  | 0, t => t
  | n + 1, t => crcShifts n (crcShift t)

/-- `crc_step(crc, byte)`: the byte into the high byte of the register, then exactly eight iterations (43_checksum.md R162). -/
def crcStep (crc : BitVec 16) (byte : Byte) : BitVec 16 := crcShifts 8 (crc ^^^ (byte.setWidth 16 <<< 8))

/-- The checksum of a byte sequence (43_checksum.md R166). -/
def crc16 (bytes : List Byte) : BitVec 16 := bytes.foldl crcStep crcInitial

/-- Answering with the checksum register (43_checksum.md R163 to R165). -/
def answerCrc (s : State) : Result := performed plainFlag (zext32 s.crc) s

/-- `CRCINIT` (43_checksum.md R163). -/
def execCrcinit (s : State) : Result := onOwnPort .M (fun s => answerCrc (s.setCrc crcInitial)) s

/-- `CRCUPD byte` (43_checksum.md R164). -/
def execCrcupd (byte : Byte) (s : State) : Result := onOwnPort .M (fun s => answerCrc (s.setCrc (crcStep s.crc byte))) s

/-- `CRCRD` (43_checksum.md R165). -/
def execCrcrd (s : State) : Result := onOwnPort .M answerCrc s

end Sys2Proof.Machine
end

