-- ==== Sys2Proof/Machine/ColorMath.lean ====
section
/-! DEFINITION. Unit HSV: the conversion (41_colormath.md R110 to R117) and the operations HSV2RGB and PXSET. -/

namespace Sys2Proof.Machine

/-- `h = hue mod 360` (41_colormath.md R112). -/
def reducedHue (hue : Nat) : Nat := hue % 360

/-- `c = (val * sat) div 255` (41_colormath.md R113). -/
def chroma (sat val : Nat) : Nat := val * sat / 255

/-- `sector = h div 60` (41_colormath.md R114). -/
def hueSector (hue : Nat) : Nat := reducedHue hue / 60

/-- `pos = h mod 60` (41_colormath.md R114). -/
def huePos (hue : Nat) : Nat := reducedHue hue % 60

/-- The ramp value `x`: rising in an even sector, falling in an odd one, multiplied first (41_colormath.md R115). -/
def ramp (sector pos c : Nat) : Nat :=
  if sector % 2 = 0 then c * pos / 60 else c * (60 - pos) / 60

/-- The sector components `(r1, g1, b1)` (41_colormath.md R117; the table is derived there, log entry 14). -/
def sectorComponents (sector c x : Nat) : Nat × Nat × Nat :=
  match sector with
  | 0 => (c, x, 0)
  | 1 => (x, c, 0)
  | 2 => (0, c, x)
  | 3 => (0, x, c)
  | 4 => (x, 0, c)
  | _ => (c, 0, x)

/-- The channels of the converted pixel, as integers: sector component plus `m = val - c` (41_colormath.md R116, R117). -/
def hsvChannels (hue sat val : Nat) : Nat × Nat × Nat :=
  let c := chroma sat val
  let x := ramp (hueSector hue) (huePos hue) c
  let m := val - c
  let part := sectorComponents (hueSector hue) c x
  (part.1 + m, part.2.1 + m, part.2.2 + m)

/-- `hsv_to_rgb` (41_colormath.md R110, R118). -/
def hsvToRgb (hue sat val : Nat) : Pixel :=
  let ch := hsvChannels hue sat val
  pixelOf (BitVec.ofNat 8 ch.1) (BitVec.ofNat 8 ch.2.1) (BitVec.ofNat 8 ch.2.2)

/-- Loading PX with a pixel that is also the response's data (10_state.md R21). -/
def loadPx (v : Pixel) (s : State) : Result := performed plainFlag (zext32 v) (s.setPx v)

/-- `HSV2RGB hue, sat, val` (41_colormath.md R118). -/
def execHsv2rgb (hue sat val : Nat) (s : State) : Result := onOwnPort .M (loadPx (hsvToRgb hue sat val)) s

/-- `PXSET r, g, b` (41_colormath.md R119). -/
def execPxset (r g b : Byte) (s : State) : Result := onOwnPort .M (loadPx (pixelOf r g b)) s

end Sys2Proof.Machine
end

