-- ==== Sys2Proof/Machine/PulseEncoder.lean ====
section
/-! DEFINITION. Unit ENC: descriptors and the expansion of a pixel (42_pulse_encoder.md R135 to R139) and the operations
PIXWR, PIXRD, FILLALL, FILLN and PULRD. -/

namespace Sys2Proof.Machine

/-- A descriptor word, high duration in 31:16 and low duration in 15:0 (42_pulse_encoder.md R136). -/
def descOf (hi lo : Nat) : Desc := BitVec.ofNat 16 hi ++ BitVec.ofNat 16 lo

/-- `D0`, the descriptor of a 0 bit (42_pulse_encoder.md R135, R136). -/
def descZero (c : Config) : Desc := descOf c.T0H c.T0L

/-- `D1`, the descriptor of a 1 bit (42_pulse_encoder.md R135, R136). -/
def descOne (c : Config) : Desc := descOf c.T1H c.T1L

/-- `TERM`, the terminator (42_pulse_encoder.md R137). -/
def terminator : Desc := 0

/-- `byte(n)` of a pixel on the wire: green, red, blue (42_pulse_encoder.md R139). -/
def wireByte (px : Pixel) : Nat → Byte
  | 0 => greenOf px
  | 1 => redOf px
  | _ => blueOf px

/-- `bit(j)` of a pixel on the wire, most significant bit of each byte first (42_pulse_encoder.md R139). -/
def wireBit (px : Pixel) (j : Nat) : Bool := (wireByte px (j / 8)).getLsbD (7 - j % 8)

/-- `expand(px)`, the 24 descriptors of a pixel (42_pulse_encoder.md R139). -/
def expandPixel (c : Config) (px : Pixel) : List Desc :=
  (List.range 24).map (fun j => if wireBit px j then descOne c else descZero c)

/-- What a fill writes from index 0 on: each pixel's descriptors, then the terminator (42_pulse_encoder.md R140, R141). -/
def fillImage (c : Config) (pxs : List Pixel) : List Desc := pxs.flatMap (expandPixel c) ++ [terminator]

/-- A fill of the first `k` pixels, the response's data the index of the terminator (42_pulse_encoder.md R140, R141). -/
def fill (k : Nat) (s : State) : Result :=
  let got := readPixRun 0 k s
  performed plainFlag (BitVec.ofNat 32 (24 * k)) (got.2.writePulse 0 (fillImage s.cfg got.1))

/-- Storing PX into an element of PIX that exists (42_pulse_encoder.md R131). -/
def storePx (idx : Nat) (s : State) : Result :=
  let got := readPx s
  performed plainFlag 0 (got.2.writePix idx [got.1])

/-- `PIXWR idx` (42_pulse_encoder.md R131). -/
def execPixwr (idx : Nat) (s : State) : Result :=
  onOwnPort .M (fun s => if s.cfg.N ≤ idx then raise .pixRange s else storePx idx s) s

/-- `PIXRD idx` (42_pulse_encoder.md R132). -/
def execPixrd (idx : Nat) (s : State) : Result :=
  onOwnPort .M (fun s => if s.cfg.N ≤ idx then raise .pixRange s else loadPx (readPix idx s).1 (readPix idx s).2) s

/-- `FILLALL` (42_pulse_encoder.md R140). -/
def execFillall (s : State) : Result := onOwnPort .M (fun s => fill s.cfg.N s) s

/-- `FILLN k` (42_pulse_encoder.md R141). -/
def execFilln (k : Nat) (s : State) : Result :=
  onOwnPort .M (fun s => if s.cfg.N < k then raise .fillRange s else fill k s) s

/-- `PULRD idx` (42_pulse_encoder.md R150). -/
def execPulrd (idx : Nat) (s : State) : Result :=
  onOwnPort .M (fun s => if 24 * s.cfg.N < idx then raise .pulseRange s
    else performed plainFlag (readPulse idx s).1 (readPulse idx s).2) s

end Sys2Proof.Machine
end

