-- ==== Sys2Proof/Machine/Dispatch.lean ====
section
/-! DEFINITION. One arm per operation of the opcode map (30_encoding.md R86), each the meaning of that operation on the
port the state names. -/

namespace Sys2Proof.Machine

/-- The meaning of an instruction presented on the port `s.port` (30_encoding.md R82 steps 1, 4, 5 and 6). -/
def exec (i : Instr) (s : State) : Host.Outcome State Fault Refusal :=
  match i with
  | .hsv2rgb hue sat val => Sys2Proof.Machine.execHsv2rgb hue sat val s
  | .pxset r g b => Sys2Proof.Machine.execPxset r g b s
  | .pixwr idx => Sys2Proof.Machine.execPixwr idx s
  | .pixrd idx => Sys2Proof.Machine.execPixrd idx s
  | .fillall => Sys2Proof.Machine.execFillall s
  | .filln k => Sys2Proof.Machine.execFilln k s
  | .pulrd idx => Sys2Proof.Machine.execPulrd idx s
  | .crcinit => Sys2Proof.Machine.execCrcinit s
  | .crcupd byte => Sys2Proof.Machine.execCrcupd byte s
  | .crcrd => Sys2Proof.Machine.execCrcrd s
  | .qdeq => Sys2Proof.Machine.execQdeq s
  | .qlen => Sys2Proof.Machine.execQlen s
  | .qenq byte => Sys2Proof.Machine.execQenq byte s

end Sys2Proof.Machine
end

