-- ==== Sys2Proof/Machine/Present.lean ====
section
/-! DEFINITION. A command word presented on a port, and what one step does with what it takes from the inputs
(30_encoding.md R82; 20_memory.md R58; 70_reset_and_hazards.md R231). -/

namespace Sys2Proof.Machine

/-- A command word presented on port `p`: decoded and performed, or rejected (30_encoding.md R82). -/
def present (p : Port) (w : Word) (s : State) : Result :=
  match decode w with
  | .ok i => exec i (s.setPort p)
  | .error why => rejectWord why (s.setPort p)

/-- One step with what was taken: one whole operation (20_memory.md R58), reset (70_reset_and_hazards.md R231), or, where
nothing is presented, nothing (log entry 10). -/
def performTaken (t : Taken × State) : Result :=
  match t.1 with
  | .nothing => .next t.2
  | .reset => .next (resetBlock t.2)
  | .command p w => present p w t.2

/-- A command word put where the next step takes it. -/
def presentFirst (p : Port) (w : Word) (s : State) : State := s.setInbox (.command p w :: s.inbox)

end Sys2Proof.Machine
end

