-- ==== Sys2Proof/Machine/Step.lean ====
section
/-! DEFINITION. One step of the block (00_scope.md R7), and a command word placed for the next step. -/

namespace Sys2Proof.Machine

/-- One step: the next thing presented is taken and performed as one indivisible operation (00_scope.md R7, 20_memory.md
R58); a block whose parameters break 00_scope.md R6 is refused (log entry 2). -/
def step (s : State) : Host.Outcome State Fault Refusal := withParameters (fun s => performTaken (takeInput s)) s

/-- The state in which the table's word is the next command presented, on the port that owns its operation (30_encoding.md
R90; log entries 3 and 12): this stands for the outside agent that presents it. -/
def State.withFetchWord (s : State) (nbits w : Nat) : State :=
  presentFirst (defaultPort (tableWord nbits w)) (tableWord nbits w) s

end Sys2Proof.Machine
end

