-- ==== Sys2Proof/Machine/Frame.lean ====
section
/-! DEFINITION. The pseudo-instructions (30_encoding.md R91), each a fixed sequence of port M operations, and the command
frame whose bytes are fed to the checksum (43_checksum.md R167, R168). The frame and its parser are software (00_scope.md
R4 (a)); the layout stands here because it fixes the feed order and what the register is compared with. -/

namespace Sys2Proof.Machine

/-- `CRCBUF b0, ..., bn-1` (30_encoding.md R91, 43_checksum.md R160). -/
def crcBuf (bytes : List Byte) : List Instr := .crcinit :: bytes.map .crcupd ++ [.crcrd]

/-- The bytes of a command frame that are fed to the checksum, in order: action, length high byte, length low byte, payload
(43_checksum.md R167). -/
def frameBody (action : Byte) (length : BitVec 16) (payload : List Byte) : List Byte :=
  action :: length.extractLsb' 8 8 :: length.extractLsb' 0 8 :: payload

/-- `CRCFRAME action, length, p0, ...` (30_encoding.md R91). -/
def crcFrame (action : Byte) (length : BitVec 16) (payload : List Byte) : List Instr :=
  crcBuf (frameBody action length payload)

/-- `SETPIX idx, r, g, b` (30_encoding.md R91). -/
def setPixel (idx : Nat) (r g b : Byte) : List Instr := [.pxset r g b, .pixwr idx]

/-- `HSVPIX idx, hue, sat, val` (30_encoding.md R91). -/
def hsvPixel (idx hue sat val : Nat) : List Instr := [.hsv2rgb hue sat val, .pixwr idx]

/-- `CLRPIX` (30_encoding.md R91). -/
def clearPixels (c : Config) : List Instr := .pxset 0 0 0 :: (List.range c.N).map .pixwr

/-- The two checksum bytes, high byte first (43_checksum.md R168). -/
def checksumBytes (crc : BitVec 16) : List Byte := [crc.extractLsb' 8 8, crc.extractLsb' 0 8]

/-- A command frame on the wire: header 0xAA, body, checksum of the body (43_checksum.md R168). -/
def wireFrame (action : Byte) (payload : List Byte) : List Byte :=
  0xAA :: frameBody action (BitVec.ofNat 16 payload.length) payload ++
    checksumBytes (crc16 (frameBody action (BitVec.ofNat 16 payload.length) payload))

/-- A byte of a frame by its offset from the header (43_checksum.md R168). -/
def frameByte (bytes : List Byte) (offset : Nat) : Byte := bytes.getD offset 0

/-- The length field of a frame, big-endian (43_checksum.md R168). -/
def frameLength (bytes : List Byte) : Nat := (frameByte bytes 2).toNat * 256 + (frameByte bytes 3).toNat

/-- A complete frame is valid: header 0xAA, all `6 + length` bytes there, `length` at most 1024, and the last two equal to the
checksum of bytes `1 .. 3 + length` (43_checksum.md R168). -/
def frameValid (bytes : List Byte) : Bool :=
  decide (bytes.length = 6 + frameLength bytes) && decide (frameLength bytes ≤ 1024) && frameByte bytes 0 == 0xAA &&
  (bytes.drop (4 + frameLength bytes) == checksumBytes (crc16 ((bytes.drop 1).take (3 + frameLength bytes))))

end Sys2Proof.Machine
end

