-- ==== Sys2Proof/Machine/Line.lean ====
section
/-! DEFINITION. What a descriptor sequence promises on the strip's data line (42_pulse_encoder.md R138; 70_reset_and_hazards.md
R248). The transmitter is outside the block (00_scope.md R4 (d)); these are functions of the words it is given. -/

namespace Sys2Proof.Machine

/-- The high duration of a descriptor, `desc[31:16]` (42_pulse_encoder.md R136). -/
def highTicks (d : Desc) : Nat := (d.extractLsb' 16 16).toNat

/-- The low duration of a descriptor, `desc[15:0]` (42_pulse_encoder.md R136). -/
def lowTicks (d : Desc) : Nat := (d.extractLsb' 0 16).toNat

/-- The transmitted bits: the descriptors before the first terminator (42_pulse_encoder.md R138). -/
def dataBits : List Desc → List Desc
  | [] => []
  | d :: ds => if d = terminator then [] else d :: dataBits ds

/-- The levels on the line and how many ticks each lasts: high, then low, for each transmitted bit; after the last one the
line is held low (42_pulse_encoder.md R138). -/
def waveform (ds : List Desc) : List (Bool × Nat) :=
  (dataBits ds).flatMap (fun d => [(true, highTicks d), (false, lowTicks d)])

/-- How many ticks the data lasts (42_pulse_encoder.md R138, 70_reset_and_hazards.md R248). -/
def lineTicks (ds : List Desc) : Nat := ((waveform ds).map (fun level => level.2)).sum

end Sys2Proof.Machine
end

