-- ==== Sys2Proof/Safety.lean ====
section
/-! DEFINITION. The terms in which claims are stated: when an operation is performed, what it answers, what it leaves
unchanged, the invariant of the block (10_state.md R41), the queue's content (R26), and the fault a command raises
(60_exceptions.md R201, R203). -/

namespace Sys2Proof.Safety

open Sys2Proof.Machine

/-! ## When an operation is performed, and what it answers -/

/-- The block is live, its parameters meet 00_scope.md R6, and the command was presented on port `p`: with an operand in
range this is when an operation that `p` owns is performed (30_encoding.md R82). -/
structure Ready (p : Port) (s : State) : Prop where
  valid : parametersValid s.cfg = true
  live : s.fault = 0
  onPort : s.port = p

/-- The latest response on port `p`. -/
def responseOn (p : Port) (s : State) : Option Response :=
  match p with
  | .M => s.respM
  | .P => s.respP

/-- The port other than `p`. -/
def otherPort : Port → Port
  | .M => .P
  | .P => .M

/-- From `s` to `t` the response `r` was given, on the command's own port and not seen on the other (30_encoding.md R83). -/
structure Answers (s t : State) (r : Response) : Prop where
  own : responseOn s.port t = some r
  other : responseOn (otherPort s.port) t = responseOn (otherPort s.port) s

/-! ## What stays unchanged -/

/-- The pieces of state the block holds (10_state.md R20). -/
inductive Piece where
  | px
  | crc
  | qwr
  | qrd
  | fault
  | pix
  | pulse
  | qmem
  deriving DecidableEq, Repr

/-- From `s` to `t` no piece of the block's state but those listed was written: every register is the same, and every element
of an array reads as before. -/
structure OnlyWrites (written : List Piece) (s t : State) : Prop where
  px : Piece.px ∉ written → t.px = s.px ∧ t.pxWritten = s.pxWritten
  crc : Piece.crc ∉ written → t.crc = s.crc
  qwr : Piece.qwr ∉ written → t.qwr = s.qwr
  qrd : Piece.qrd ∉ written → t.qrd = s.qrd
  fault : Piece.fault ∉ written → t.fault = s.fault
  pix : Piece.pix ∉ written → ∀ a, t.pix.read a = s.pix.read a
  pulse : Piece.pulse ∉ written → ∀ a, t.pulse.read a = s.pulse.read a
  qmem : Piece.qmem ∉ written → ∀ a, t.qmem.read a = s.qmem.read a

/-- The parameters, the port of the command and what the outside presents next are as before. -/
structure KeepsOutside (s t : State) : Prop where
  cfg : t.cfg = s.cfg
  port : t.port = s.port
  inbox : t.inbox = s.inbox

/-- From `s` to `t` an operation was performed: it answered `flag` and `data`, and wrote no piece of state but those listed. -/
structure Performs (written : List Piece) (flag : Bool) (data : Word) (s t : State) : Prop where
  answer : Answers s t { fault := 0, flag := flag, data := data }
  only : OnlyWrites written s t
  outside : KeepsOutside s t

/-- From `s` to `t` the command raised the fault `c`: nothing the block holds was written but FAULT, which holds the code,
and the response carries it (60_exceptions.md R200). -/
structure Raises (c : Cause) (s t : State) : Prop where
  answer : Answers s t { fault := c.code, flag := false, data := 0 }
  only : OnlyWrites [.fault] s t
  latched : t.fault = c.code
  outside : KeepsOutside s t

/-- From `s` to `t` the command found the block halted: the response says so and nothing the block holds was written
(60_exceptions.md R204). -/
structure FindsHalted (s t : State) : Prop where
  answer : Answers s t { fault := 6, flag := false, data := 0 }
  only : OnlyWrites [] s t
  outside : KeepsOutside s t

/-- The common faults of an operation that port `owner` owns: `Halted` on a halted block, and on a live one `IllegalPort`
where it is presented on the other port (30_encoding.md R82 steps 1 and 4). -/
def CommonFaults (owner : Port) (i : Instr) : Prop :=
  ∀ s, parametersValid s.cfg = true →
    (s.fault ≠ 0 → ∃ t, exec i s = .next t ∧ FindsHalted s t) ∧
    (s.fault = 0 → s.port ≠ owner → ∃ t, exec i s = .next t ∧ Raises .illegalPort s t)

/-- The words of operation code `op`: with a reserved bit set no operation, else the instruction read from the word's number
(30_encoding.md R82 step 3, R84). -/
def EncodedAs (op : Nat) (reserved : Word) (i : Nat → Instr) : Prop :=
  ∀ w : Word, w.toNat / 2 ^ 28 = op → decode w = if w &&& reserved = 0 then .ok (i w.toNat) else .error .reservedBit

/-! ## What a fill leaves in PULSE -/

/-- The descriptor of a bit: durations of the parameters, high duration in 31:16 (42_pulse_encoder.md R135, R136). -/
def bitDesc (c : Config) (bit : Bool) : Desc :=
  if bit then BitVec.ofNat 32 (c.T1H * 2 ^ 16 + c.T1L) else BitVec.ofNat 32 (c.T0H * 2 ^ 16 + c.T0L)

/-- The bit of a 24-bit pixel word that is the `j`-th on the wire: green's 15:8, then red's 23:16, then blue's 7:0, each from
its most significant bit down (42_pulse_encoder.md R139). -/
def wireIndex (j : Nat) : Nat := if j < 8 then 15 - j else if j < 16 then 31 - j else 23 - j

/-- From `s` to `t` the first `k` pixels were encoded into PULSE and the terminator put right after them, and the elements
above it left alone; a pixel not written since reset is encoded from some pixel (42_pulse_encoder.md R140 to R142,
93_implementation_defined.md U1). -/
structure Filled (k : Nat) (s t : State) : Prop where
  pixels : ∀ i, i < k → ∃ px : Pixel, (∀ u, s.pix.read i = some u → px = u) ∧
    ∀ j, j < 24 → t.pulse.read (24 * i + j) = some (bitDesc s.cfg (px.getLsbD (wireIndex j)))
  last : t.pulse.read (24 * k) = some 0
  above : ∀ a, 24 * k < a → t.pulse.read a = s.pulse.read a

/-- The first terminator of PULSE is at index `24*k` (42_pulse_encoder.md R143). -/
structure Terminated (k : Nat) (m : Memory 32) : Prop where
  last : m.read (24 * k) = some 0
  below : ∀ a, a < 24 * k → ∃ d, m.read a = some d ∧ d ≠ 0

/-! ## The queue's content -/

/-- The content of the queue, oldest byte first (10_state.md R26). Under `Inv` every slot of it is stored, so it has
`occupancy s` bytes. -/
def content (s : State) : List Byte :=
  (List.range (occupancy s)).filterMap (fun j => s.qmem.read ((s.qrd + j) % s.cfg.QCAP))

/-! ## The invariant -/

/-- The block's invariant (10_state.md R26, R32, R41): the pointers and the occupancy in range, FAULT one of its legal values,
every array in its canonical form inside its space, and every slot of the queue's content stored. -/
structure Inv (s : State) : Prop where
  valid : parametersValid s.cfg = true
  qwr_lt : s.qwr < 2 * s.cfg.QCAP
  qrd_lt : s.qrd < 2 * s.cfg.QCAP
  occupancy_le : occupancy s ≤ s.cfg.QCAP
  fault_code : s.fault.toNat ≤ 5
  pix_wf : Memory.wf s.cfg.N s.pix = true
  pulse_wf : Memory.wf s.cfg.PLEN s.pulse = true
  qmem_wf : Memory.wf s.cfg.QCAP s.qmem = true
  content_stored : ∀ j, j < occupancy s → (s.qmem.read ((s.qrd + j) % s.cfg.QCAP)).isSome = true

/-! ## The fault a command raises -/

/-- The bits that the format of operation code `op` marks reserved, as a mask (30_encoding.md R84, R86). -/
def reservedMask (op : Nat) : Word :=
  if op = 0x2 then 0x0F000000
  else if op = 0x3 ∨ op = 0x4 ∨ op = 0x6 then 0x0FFFF000
  else if op = 0x7 then 0x0FFF0000
  else if op = 0x9 ∨ op = 0xD then 0x0FFFFF00
  else if op = 0x5 ∨ op = 0x8 ∨ op = 0xA ∨ op = 0xB ∨ op = 0xC then 0x0FFFFFFF
  else 0

/-- The code in the response to the word `w` presented on port `p`: the table of causes in their order of priority
(60_exceptions.md R201, R203; 30_encoding.md R82). -/
def expectedCode (p : Port) (w : Word) (s : State) : BitVec 4 :=
  let op := w.toNat / 2 ^ 28
  if s.fault ≠ 0 then 6
  else if op = 0x0 ∨ op = 0xE ∨ op = 0xF then 1
  else if w &&& reservedMask op ≠ 0 then 1
  else if p ≠ (if op = 0xD then Port.P else Port.M) then 2
  else if (op = 0x3 ∨ op = 0x4) ∧ s.cfg.N ≤ w.toNat % 2 ^ 12 then 3
  else if op = 0x6 ∧ s.cfg.N < w.toNat % 2 ^ 12 then 4
  else if op = 0x7 ∧ 24 * s.cfg.N < w.toNat % 2 ^ 16 then 5
  else 0

/-! ## Sequences -/

/-- Instructions one after the other on the port the state names, up to the first stop. -/
def execAll : List Instr → State → Result
  | [], s => .next s
  | i :: is, s =>
    match exec i s with
    | .next t => execAll is t
    | .fault r => .fault r
    | .refused r => .refused r

/-- Nothing that is presented from now on is a reset. -/
def NoReset (s : State) : Prop := ∀ m p, Input.reset m p ∉ s.inbox

/-- The byte that the next step's `QENQ` accepts, if it is one and does. -/
def acceptedByte (s : State) : List Byte :=
  match (takeInput s).1, step s with
  | .command .P w, .next t =>
    match decode w with
    | .ok (.qenq b) => if t.respP = some { fault := 0, flag := true, data := 0 } then [b] else []
    | _ => []
  | _, _ => []

/-- The byte that the next step's `QDEQ` returns, if it is one and does. -/
def returnedByte (s : State) : List Byte :=
  match (takeInput s).1, step s with
  | .command .M w, .next t =>
    match decode w, t.respM with
    | .ok .qdeq, some r => if r.fault = 0 ∧ r.flag = true then [r.data.setWidth 8] else []
    | _, _ => []
  | _, _ => []

/-- What `f` collects over `n` steps. -/
def collected (f : State → List Byte) : Nat → State → List Byte
  | 0, _ => []
  | n + 1, s =>
    match step s with
    | .next t => f s ++ collected f n t
    | _ => []

end Sys2Proof.Safety
end

