-- ==== Sys2Proof/Certificates/Slice0/Obligations.lean ====
section
/-! DEFINITION. The statements for the provers, each from the rules of the spec its docstring names. Statements about an
operation say which words are it, what it does on every state in which it is performed, where it faults instead, and what it
leaves alone. `Performs`, `Raises`, `FindsHalted`, `OnlyWrites` and the other terms stand in Sys2Proof/Safety.lean. -/

open Sys2Proof Sys2Proof.Machine Sys2Proof.Safety

/-! ## Encoding -/

/-- Words written out from the formats of 30_encoding.md R84 and the operation codes of R86, one or more for every operation,
and words that are none (R87). -/
def Obligations.SpecWordsDecode : Prop :=
  decode 0x102D80C8 = .ok (.hsv2rgb 45 128 200) ∧
  decode 0x1FFFFFFF = .ok (.hsv2rgb 4095 255 255) ∧
  decode 0x20123456 = .ok (.pxset 0x12 0x34 0x56) ∧
  decode 0x30000117 = .ok (.pixwr 279) ∧
  decode 0x40000FFF = .ok (.pixrd 4095) ∧
  decode 0x50000000 = .ok .fillall ∧
  decode 0x60000118 = .ok (.filln 280) ∧
  decode 0x70001A40 = .ok (.pulrd 6720) ∧
  decode 0x80000000 = .ok .crcinit ∧
  decode 0x90000001 = .ok (.crcupd 0x01) ∧
  decode 0xA0000000 = .ok .crcrd ∧
  decode 0xB0000000 = .ok .qdeq ∧
  decode 0xC0000000 = .ok .qlen ∧
  decode 0xD0000044 = .ok (.qenq 0x44) ∧
  decode 0x00000000 = .error .unassignedOperation ∧
  decode 0xE0000000 = .error .unassignedOperation ∧
  decode 0xFFFFFFFF = .error .unassignedOperation ∧
  decode 0x21000000 = .error .reservedBit ∧
  decode 0x30001000 = .error .reservedBit ∧
  decode 0x70010000 = .error .reservedBit ∧
  decode 0x90000100 = .error .reservedBit ∧
  decode 0xC0010000 = .error .reservedBit

/-- Decoding the word of a well-formed instruction gives it back, every operand at every value its field admits
(30_encoding.md R80, R84, R85). -/
def Obligations.DecodeOfEncodeIsIdentity : Prop :=
  ∀ i : Instr, i.wellFormed = true → decode (encode i) = .ok i

/-- A word that decodes is the word of the instruction it decodes to, and that instruction is well-formed: no bit is ignored
(30_encoding.md R84, R87). -/
def Obligations.EncodeOfDecodeIsIdentity : Prop :=
  ∀ (w : Word) (i : Instr), decode w = .ok i → encode i = w ∧ i.wellFormed = true

/-- A word is an operation exactly when `(w & mask) == match` for that operation's row (30_encoding.md R86, columns "match" and
"mask"). -/
def Obligations.OpcodeMapDecides : Prop :=
  ∀ (w : Word) (row : Instr), (∃ i, decode w = .ok i ∧ i.op = row.op) ↔ w &&& row.maskWord = row.matchWord

/-- Which words are no operation, and for which reason: an unassigned code comes before a reserved bit (30_encoding.md R82
steps 2 and 3, R87). -/
def Obligations.IllegalWordsAreNamed : Prop :=
  ∀ w : Word,
    (decode w = .error .unassignedOperation ↔
      w.toNat / 2 ^ 28 = 0x0 ∨ w.toNat / 2 ^ 28 = 0xE ∨ w.toNat / 2 ^ 28 = 0xF) ∧
    (decode w = .error .reservedBit ↔
      (w.toNat / 2 ^ 28 ≠ 0x0 ∧ w.toNat / 2 ^ 28 ≠ 0xE ∧ w.toNat / 2 ^ 28 ≠ 0xF) ∧
        w &&& reservedMask (w.toNat / 2 ^ 28) ≠ 0)

/-! ## Unit HSV -/

/-- `HSV2RGB` (41_colormath.md R118, the formulas written out): encoding, result, response, frame, faults. The table of sector
components is the spec's own inference (R117: "[derived: from the progression sentence and rule R115; ...]"; log entry 14). -/
def Obligations.Hsv2rgbLoadsConvertedPixel : Prop :=
  EncodedAs 0x1 0 (fun n => .hsv2rgb (n / 2 ^ 16 % 2 ^ 12) (n / 2 ^ 8 % 2 ^ 8) (n % 2 ^ 8)) ∧
  (∀ (s : State) (hue sat val h c sector pos x m r1 g1 b1 : Nat),
    (Instr.hsv2rgb hue sat val).wellFormed = true → Ready .M s →
    h = hue % 360 → c = val * sat / 255 → sector = h / 60 → pos = h % 60 →
    x = (if sector = 0 ∨ sector = 2 ∨ sector = 4 then c * pos / 60 else c * (60 - pos) / 60) →
    m = val - c →
    (r1, g1, b1) = (if sector = 0 then (c, x, 0) else if sector = 1 then (x, c, 0) else if sector = 2 then (0, c, x)
      else if sector = 3 then (0, x, c) else if sector = 4 then (x, 0, c) else (c, 0, x)) →
    ∃ t, exec (.hsv2rgb hue sat val) s = .next t ∧
      r1 + m ≤ 255 ∧ g1 + m ≤ 255 ∧ b1 + m ≤ 255 ∧
      t.px.toNat = (r1 + m) * 2 ^ 16 + (g1 + m) * 2 ^ 8 + (b1 + m) ∧ t.pxWritten = true ∧
      Performs [.px] false (BitVec.ofNat 32 t.px.toNat) s t) ∧
  (∀ hue sat val, CommonFaults .M (.hsv2rgb hue sat val))

/-- The laws of the conversion, for all operands (41_colormath.md R121): (a) the largest channel is `val`, (b) the smallest is
`val - c`, (c) every channel is at most 255, (d) only `hue mod 360` counts, (e) a sector component is 0 and one is `c`. They
are the spec's own inference ("[derived: from rules R113 to R117]"; log entry 14). -/
def Obligations.HsvConversionLaws : Prop :=
  ∀ hue sat val : Nat, (Instr.hsv2rgb hue sat val).wellFormed = true →
    let px := hsvToRgb hue sat val
    let c := val * sat / 255
    let part := sectorComponents (hueSector hue) c (ramp (hueSector hue) (huePos hue) c)
    max (redOf px).toNat (max (greenOf px).toNat (blueOf px).toNat) = val ∧
    min (redOf px).toNat (min (greenOf px).toNat (blueOf px).toNat) = val - c ∧
    ((hsvChannels hue sat val).1 ≤ 255 ∧ (hsvChannels hue sat val).2.1 ≤ 255 ∧ (hsvChannels hue sat val).2.2 ≤ 255) ∧
    hsvToRgb hue sat val = hsvToRgb (hue % 360) sat val ∧
    (part.1 = 0 ∨ part.2.1 = 0 ∨ part.2.2 = 0) ∧ (part.1 = c ∨ part.2.1 = c ∨ part.2.2 = c)

/-- `PXSET` (41_colormath.md R119). -/
def Obligations.PxsetLoadsImmediatePixel : Prop :=
  EncodedAs 0x2 0x0F000000
    (fun n => .pxset (BitVec.ofNat 8 (n / 2 ^ 16)) (BitVec.ofNat 8 (n / 2 ^ 8)) (BitVec.ofNat 8 n)) ∧
  (∀ (s : State) (r g b : Byte), Ready .M s →
    ∃ t, exec (.pxset r g b) s = .next t ∧
      t.px.toNat = r.toNat * 2 ^ 16 + g.toNat * 2 ^ 8 + b.toNat ∧ t.pxWritten = true ∧
      Performs [.px] false (BitVec.ofNat 32 t.px.toNat) s t) ∧
  (∀ r g b, CommonFaults .M (.pxset r g b))

/-! ## Unit ENC -/

/-- `PIXWR` (42_pulse_encoder.md R131). Where nothing has written PX since reset, the element is written with a free value
(93_implementation_defined.md U1), of which nothing is said. -/
def Obligations.PixwrStoresPixelRegister : Prop :=
  EncodedAs 0x3 0x0FFFF000 (fun n => .pixwr (n % 2 ^ 12)) ∧
  (∀ (s : State) (idx : Nat), Ready .M s → idx < s.cfg.N →
    ∃ t, exec (.pixwr idx) s = .next t ∧ Performs [.pix] false 0 s t ∧
      (s.pxWritten = true → t.pix.read idx = some s.px) ∧ (∃ v, t.pix.read idx = some v) ∧
      ∀ a, a ≠ idx → t.pix.read a = s.pix.read a) ∧
  (∀ (s : State) (idx : Nat), Ready .M s → s.cfg.N ≤ idx → ∃ t, exec (.pixwr idx) s = .next t ∧ Raises .pixRange s t) ∧
  (∀ idx, CommonFaults .M (.pixwr idx))

/-- `PIXRD` (42_pulse_encoder.md R132). An element not written since reset gives a free value (93_implementation_defined.md
U1): PX and the response agree on it. -/
def Obligations.PixrdLoadsPixelRegister : Prop :=
  EncodedAs 0x4 0x0FFFF000 (fun n => .pixrd (n % 2 ^ 12)) ∧
  (∀ (s : State) (idx : Nat), Ready .M s → idx < s.cfg.N →
    ∃ t, exec (.pixrd idx) s = .next t ∧ Performs [.px] false (BitVec.ofNat 32 t.px.toNat) s t ∧ t.pxWritten = true ∧
      ∀ v, s.pix.read idx = some v → t.px = v) ∧
  (∀ (s : State) (idx : Nat), Ready .M s → s.cfg.N ≤ idx → ∃ t, exec (.pixrd idx) s = .next t ∧ Raises .pixRange s t) ∧
  (∀ idx, CommonFaults .M (.pixrd idx))

/-- The expansion of a pixel (42_pulse_encoder.md R139): 24 descriptors, bytes green, red, blue, most significant bit first;
the bit string as a number is `{g, r, b}`. -/
def Obligations.ExpansionIsGreenRedBlueMsbFirst : Prop :=
  ∀ (c : Config) (px : Pixel) (byte : Nat → Byte) (bit : Nat → Bool),
    byte 0 = px.extractLsb' 8 8 → byte 1 = px.extractLsb' 16 8 → byte 2 = px.extractLsb' 0 8 →
    (∀ j, j < 24 → bit j = (byte (j / 8)).getLsbD (7 - j % 8)) →
    (expandPixel c px).length = 24 ∧
    (∀ j, j < 24 → (expandPixel c px)[j]? = some (if bit j then descOne c else descZero c)) ∧
    (List.range 24).foldl (fun n j => 2 * n + (bit j).toNat) 0 =
      (byte 0).toNat * 2 ^ 16 + (byte 1).toNat * 2 ^ 8 + (byte 2).toNat

/-- `FILLALL` (42_pulse_encoder.md R140); that it is `FILLN N` is the spec's own inference ("[derived: from rule R141]"). -/
def Obligations.FillallEncodesEveryPixel : Prop :=
  EncodedAs 0x5 0x0FFFFFFF (fun _ => .fillall) ∧
  (∀ s : State, Ready .M s →
    ∃ t, exec .fillall s = .next t ∧ Performs [.pulse] false (BitVec.ofNat 32 (24 * s.cfg.N)) s t ∧
      Filled s.cfg.N s t) ∧
  (∀ s : State, exec .fillall s = exec (.filln s.cfg.N) s) ∧
  CommonFaults .M .fillall

/-- `FILLN` (42_pulse_encoder.md R141, R142). -/
def Obligations.FillnEncodesLeadingPixels : Prop :=
  EncodedAs 0x6 0x0FFFF000 (fun n => .filln (n % 2 ^ 12)) ∧
  (∀ (s : State) (k : Nat), Ready .M s → k ≤ s.cfg.N →
    ∃ t, exec (.filln k) s = .next t ∧ Performs [.pulse] false (BitVec.ofNat 32 (24 * k)) s t ∧ Filled k s t) ∧
  (∀ (s : State) (k : Nat), Ready .M s → s.cfg.N < k → ∃ t, exec (.filln k) s = .next t ∧ Raises .fillRange s t) ∧
  (∀ k, CommonFaults .M (.filln k))

/-- After any successful fill, and until the next fill (or reset), the first terminator of PULSE is right after the pixels of
that fill (42_pulse_encoder.md R143, the spec's own inference: "[derived: from rules R137, R140 and R141 ...]"). -/
def Obligations.TerminatorStaysUntilNextFill : Prop :=
  (∀ (s t : State) (k : Nat), Ready .M s → k ≤ s.cfg.N → exec (.filln k) s = .next t → Terminated k t.pulse) ∧
  (∀ s t : State, Ready .M s → exec .fillall s = .next t → Terminated s.cfg.N t.pulse) ∧
  (∀ (s t : State) (k : Nat), step s = .next t → (takeInput s).1 ≠ .reset →
    (∀ p w, (takeInput s).1 = .command p w → decode w ≠ .ok .fillall ∧ ∀ k', decode w ≠ .ok (.filln k')) →
    Terminated k s.pulse → Terminated k t.pulse)

/-- `PULRD` (42_pulse_encoder.md R150). An element not written since reset gives a free value
(93_implementation_defined.md U1). -/
def Obligations.PulrdReturnsDescriptor : Prop :=
  EncodedAs 0x7 0x0FFF0000 (fun n => .pulrd (n % 2 ^ 16)) ∧
  (∀ (s : State) (idx : Nat), Ready .M s → idx ≤ 24 * s.cfg.N →
    ∃ t d, exec (.pulrd idx) s = .next t ∧ Performs [] false d s t ∧ ∀ v, s.pulse.read idx = some v → d = v) ∧
  (∀ (s : State) (idx : Nat), Ready .M s → 24 * s.cfg.N < idx →
    ∃ t, exec (.pulrd idx) s = .next t ∧ Raises .pulseRange s t) ∧
  (∀ idx, CommonFaults .M (.pulrd idx))

/-- What a fill of pixels that have all been written promises on the line (42_pulse_encoder.md R138, R139): reading PULSE from
index 0 up to the first terminator, 24 bits per pixel in the order of the pixels, a 1 bit `T1H` ticks high and `T1L` low, a 0
bit `T0H` high and `T0L` low. -/
def Obligations.FilledPulsesDescribeTheLine : Prop :=
  ∀ (s t : State) (us : List Pixel), Ready .M s → us.length ≤ s.cfg.N →
    (∀ i, i < us.length → s.pix.read i = us[i]?) →
    exec (.filln us.length) s = .next t →
    waveform ((List.range s.cfg.PLEN).filterMap (fun a => t.pulse.read a)) =
      us.flatMap (fun px => (List.range 24).flatMap (fun j =>
        if px.getLsbD (wireIndex j) then [(true, s.cfg.T1H), (false, s.cfg.T1L)]
        else [(true, s.cfg.T0H), (false, s.cfg.T0L)]))

/-- A pixel put in with `PXSET` and `PIXWR` comes back with `PIXRD`, at every index of the space (41_colormath.md R119,
42_pulse_encoder.md R131, R132). -/
def Obligations.StoredPixelReadsBack : Prop :=
  ∀ (s : State) (idx : Nat) (r g b : Byte), Ready .M s → idx < s.cfg.N →
    ∃ t, execAll (setPixel idx r g b ++ [.pixrd idx]) s = .next t ∧
      redOf t.px = r ∧ greenOf t.px = g ∧ blueOf t.px = b ∧
      Performs [.px, .pix] false (BitVec.ofNat 32 t.px.toNat) s t

/-! ## Unit CRC -/

/-- `CRCINIT` (43_checksum.md R163). -/
def Obligations.CrcinitStartsComputation : Prop :=
  EncodedAs 0x8 0x0FFFFFFF (fun _ => .crcinit) ∧
  (∀ s : State, Ready .M s →
    ∃ t, exec .crcinit s = .next t ∧ Performs [.crc] false 0x0000FFFF s t ∧ t.crc = 0xFFFF) ∧
  CommonFaults .M .crcinit

/-- `CRCUPD` (43_checksum.md R162, R164), the byte step written out: `u` is the register before each of the eight iterations
and after the last. -/
def Obligations.CrcupdFoldsOneByte : Prop :=
  EncodedAs 0x9 0x0FFFFF00 (fun n => .crcupd (BitVec.ofNat 8 n)) ∧
  (∀ (s : State) (byte : Byte) (u : Nat → BitVec 16), Ready .M s →
    u 0 = s.crc ^^^ (byte.setWidth 16 <<< 8) →
    (∀ n, n < 8 → u (n + 1) = if (u n).getLsbD 15 then (u n <<< 1) ^^^ 0x1021 else u n <<< 1) →
    ∃ t, exec (.crcupd byte) s = .next t ∧ Performs [.crc] false (BitVec.ofNat 32 (u 8).toNat) s t ∧ t.crc = u 8) ∧
  (∀ byte, CommonFaults .M (.crcupd byte))

/-- `CRCRD` (43_checksum.md R165). -/
def Obligations.CrcrdReturnsRegister : Prop :=
  EncodedAs 0xA 0x0FFFFFFF (fun _ => .crcrd) ∧
  (∀ s : State, Ready .M s → ∃ t, exec .crcrd s = .next t ∧ Performs [] false (BitVec.ofNat 32 s.crc.toNat) s t) ∧
  CommonFaults .M .crcrd

/-- The byte step is a bijection of the register for each byte, and one-to-one in the byte for each register; so changing one
fed byte of a sequence changes its checksum (43_checksum.md R169 and its consequence (a), the spec's own inference:
"[derived: from rule R162: ...]"). -/
def Obligations.CrcStepIsBijective : Prop :=
  (∀ byte : Byte, Function.Bijective (fun crc => crcStep crc byte)) ∧
  (∀ crc : BitVec 16, Function.Injective (crcStep crc)) ∧
  (∀ (before after : List Byte) (b b' : Byte), b ≠ b' →
    crc16 (before ++ b :: after) ≠ crc16 (before ++ b' :: after))

/-- Feeding a sequence and then its own checksum, high byte first, leaves 0 (43_checksum.md R169 (b), the spec's own inference:
"[derived: from rule R162; ...]"). -/
def Obligations.CrcResidueIsZero : Prop :=
  ∀ bytes : List Byte, crc16 (bytes ++ [(crc16 bytes).extractLsb' 8 8, (crc16 bytes).extractLsb' 0 8]) = 0

/-- The checksum of a byte sequence: `CRCINIT`, one `CRCUPD` per byte in order, `CRCRD` gives the fold of the byte step from
0xFFFF, for the empty sequence 0xFFFF (43_checksum.md R160, R166). -/
def Obligations.ChecksumOfSequenceIsFold : Prop :=
  (∀ (s : State) (bytes : List Byte), Ready .M s →
    ∃ t, execAll (crcBuf bytes) s = .next t ∧ t.crc = bytes.foldl crcStep 0xFFFF ∧
      Performs [.crc] false (BitVec.ofNat 32 t.crc.toNat) s t) ∧
  crc16 [] = 0xFFFF

/-- A command frame made as 43_checksum.md R168 says, its checksum over action, length and payload (R167), is valid and has
`6 + length` bytes; with another action byte, or with one payload byte changed, and the same checksum it is not. -/
def Obligations.WellMadeFrameIsValid : Prop :=
  (∀ (action : Byte) (payload : List Byte), payload.length ≤ 1024 →
    frameValid (wireFrame action payload) = true ∧ (wireFrame action payload).length = 6 + payload.length) ∧
  (∀ (action action' : Byte) (payload : List Byte), payload.length ≤ 1024 → action' ≠ action →
    frameValid ((wireFrame action payload).set 1 action') = false) ∧
  (∀ (action v : Byte) (payload : List Byte) (j : Nat), payload.length ≤ 1024 → j < payload.length →
    payload[j]? ≠ some v → frameValid ((wireFrame action payload).set (4 + j) v) = false)

/-! ## Unit Q -/

/-- `QENQ` (44_bytequeue.md R181), the occupancy written out over the integers (R191). -/
def Obligations.QenqStoresOrDrops : Prop :=
  EncodedAs 0xD 0x0FFFFF00 (fun n => .qenq (BitVec.ofNat 8 n)) ∧
  (∀ (s : State) (byte : Byte), Ready .P s →
    ((s.qwr : Int) - s.qrd) % (2 * s.cfg.QCAP) = s.cfg.QCAP →
    ∃ t, exec (.qenq byte) s = .next t ∧ Performs [] false 0 s t) ∧
  (∀ (s : State) (byte : Byte), Ready .P s →
    ((s.qwr : Int) - s.qrd) % (2 * s.cfg.QCAP) ≠ s.cfg.QCAP →
    ∃ t, exec (.qenq byte) s = .next t ∧ Performs [.qmem, .qwr] true 0 s t ∧
      t.qmem.read (s.qwr % s.cfg.QCAP) = some byte ∧
      (∀ a, a ≠ s.qwr % s.cfg.QCAP → t.qmem.read a = s.qmem.read a) ∧
      t.qwr = (s.qwr + 1) % (2 * s.cfg.QCAP)) ∧
  (∀ byte, CommonFaults .P (.qenq byte))

/-- `QDEQ` (44_bytequeue.md R184). -/
def Obligations.QdeqRemovesOldest : Prop :=
  EncodedAs 0xB 0x0FFFFFFF (fun _ => .qdeq) ∧
  (∀ s : State, Ready .M s → s.qwr = s.qrd → ∃ t, exec .qdeq s = .next t ∧ Performs [] false 0 s t) ∧
  (∀ s : State, Ready .M s → s.qwr ≠ s.qrd →
    ∃ t v, exec .qdeq s = .next t ∧ Performs [.qrd] true (BitVec.ofNat 32 (v : Byte).toNat) s t ∧
      (∀ u, s.qmem.read (s.qrd % s.cfg.QCAP) = some u → v = u) ∧
      t.qrd = (s.qrd + 1) % (2 * s.cfg.QCAP)) ∧
  CommonFaults .M .qdeq

/-- `QLEN` (44_bytequeue.md R187). -/
def Obligations.QlenReturnsOccupancy : Prop :=
  EncodedAs 0xC 0x0FFFFFFF (fun _ => .qlen) ∧
  (∀ (s : State) (n : Nat), Ready .M s → (n : Int) = ((s.qwr : Int) - s.qrd) % (2 * s.cfg.QCAP) →
    ∃ t, exec .qlen s = .next t ∧ Performs [] false (BitVec.ofNat 32 n) s t) ∧
  CommonFaults .M .qlen

/-- The abstract behaviour of the queue (44_bytequeue.md R190): on every state that meets the invariant the ring does to its
content what the rule says of the sequence `S`, and no other operation changes it; reset empties it. The rule is the spec's own
inference ("[derived: from rules R181, R184, R187 and 10_state.md rule R26]"). -/
def Obligations.QueueRefinesSequence : Prop :=
  (∀ (s : State) (b : Byte), Inv s → Ready .P s → (content s).length < s.cfg.QCAP →
    ∃ t, exec (.qenq b) s = .next t ∧ content t = content s ++ [b] ∧ Answers s t { fault := 0, flag := true, data := 0 }) ∧
  (∀ (s : State) (b : Byte), Inv s → Ready .P s → (content s).length = s.cfg.QCAP →
    ∃ t, exec (.qenq b) s = .next t ∧ content t = content s ∧ Answers s t { fault := 0, flag := false, data := 0 }) ∧
  (∀ (s : State) (v : Byte) (rest : List Byte), Inv s → Ready .M s → content s = v :: rest →
    ∃ t, exec .qdeq s = .next t ∧ content t = rest ∧
      Answers s t { fault := 0, flag := true, data := BitVec.ofNat 32 v.toNat }) ∧
  (∀ s : State, Inv s → Ready .M s → content s = [] →
    ∃ t, exec .qdeq s = .next t ∧ content t = [] ∧ Answers s t { fault := 0, flag := false, data := 0 }) ∧
  (∀ s : State, Inv s → Ready .M s →
    ∃ t, exec .qlen s = .next t ∧ content t = content s ∧
      Answers s t { fault := 0, flag := false, data := BitVec.ofNat 32 (content s).length }) ∧
  (∀ (i : Instr) (s t : State), i ≠ .qdeq → (∀ b, i ≠ .qenq b) → exec i s = .next t → content t = content s) ∧
  (∀ s : State, content (resetBlock s) = [])

/-- Over any run without reset from a state that meets the invariant, what was queued followed by what `QENQ` accepted is what
`QDEQ` returned followed by what is queued at the end: first in, first out, each accepted byte returned exactly once
(20_memory.md R60, R61). That what is presented stands in a list is the model's choice (log entry 3). -/
def Obligations.AcceptedBytesLeaveInOrder : Prop :=
  ∀ (n : Nat) (s t : State), Inv s → NoReset s → Sys2Proof.core.run n s = .next t →
    content s ++ collected acceptedByte n s = collected returnedByte n s ++ content t

/-! ## Commands, steps and inputs -/

/-- When a command word is the next thing presented and decodes to `i`, the step is `exec i` on the state that names its port
and no longer lists it; when it decodes to nothing, a live block raises `IllegalOp` and a halted one answers so
(30_encoding.md R82, 20_memory.md R58). The list of inputs and the port kept in the state are the model's choice (log entries
3 and 6). -/
def Obligations.StepRunsTheDecodedCommand : Prop :=
  ∀ (s : State) (p : Port) (w : Word) (rest : List Input), parametersValid s.cfg = true →
    s.inbox = .command p w :: rest →
    (∀ i, decode w = .ok i → step s = exec i { s with inbox := rest, port := p }) ∧
    (∀ why, decode w = .error why → s.fault = 0 →
      ∃ t, step s = .next t ∧ Raises .illegalOp { s with inbox := rest, port := p } t) ∧
    (∀ why, decode w = .error why → s.fault ≠ 0 →
      ∃ t, step s = .next t ∧ FindsHalted { s with inbox := rest, port := p } t)

/-- THE MODEL'S CHOICE (log entry 10): where nothing is presented a step changes nothing. -/
def Obligations.IdleStepChangesNothing : Prop :=
  ∀ s : State, parametersValid s.cfg = true → s.inbox = [] → step s = .next s

/-- Two commands presented in the same clock period take effect in one of the two serial orders; which one is a free value
(20_memory.md R59, 60_exceptions.md R206; log entry 4). -/
def Obligations.SimultaneousPairIsSerial : Prop :=
  ∀ (s : State) (onM onP : Word) (rest : List Input), s.inbox = .pair onM onP :: rest →
    step s = step { s with inbox := .command .P onP :: .command .M onM :: rest, draws := s.draws + 1 } ∨
    step s = step { s with inbox := .command .M onM :: .command .P onP :: rest, draws := s.draws + 1 }

/-- `QENQ` and any operation of port M but `QDEQ` and `QLEN` that is performed may change places: the two orders leave the
same state, but for the port that the model keeps (20_memory.md R59; log entry 6). -/
def Obligations.EnqueueCommutesWithOtherUnits : Prop :=
  ∀ (i : Instr) (b : Byte) (s u t : State), i ≠ .qdeq → i ≠ .qlen → (∀ b', i ≠ .qenq b') →
    exec i (s.setPort .M) = .next u → u.fault = 0 → exec (.qenq b) (u.setPort .P) = .next t →
    ∃ v, exec (.qenq b) (s.setPort .P) = .next v ∧ exec i (v.setPort .M) = .next (t.setPort .M)

/-- Reset as a step (70_reset_and_hazards.md R230, R231): every register and array as 10_state.md R40 says, whatever the block
held; commands presented while it is active get no response and have no effect. That the responses kept in the state are
forgotten and the parameters and coming inputs stay is the model's choice (log entries 5 and 11). -/
def Obligations.ResetStepClearsTheBlock : Prop :=
  ∀ (s : State) (onM onP : Option Word) (rest : List Input), parametersValid s.cfg = true →
    s.inbox = .reset onM onP :: rest →
    ∃ t, step s = .next t ∧ t.crc = 0xFFFF ∧ t.qwr = 0 ∧ t.qrd = 0 ∧ t.fault = 0 ∧ t.pxWritten = false ∧
      (∀ a, t.pix.read a = none ∧ t.pulse.read a = none ∧ t.qmem.read a = none) ∧
      t.respM = none ∧ t.respP = none ∧ t.cfg = s.cfg ∧ t.inbox = rest

/-- The state after reset (10_state.md R40, 00_scope.md R5): the values the spec gives, and no element or register written; that
the parameters are the defaults is the model's choice (log entry 1). -/
def Obligations.ResetStateHoldsTheSpecsValues : Prop :=
  State.reset.crc = 0xFFFF ∧ State.reset.qwr = 0 ∧ State.reset.qrd = 0 ∧ State.reset.fault = 0 ∧
  State.reset.pxWritten = false ∧
  (∀ a, State.reset.pix.read a = none ∧ State.reset.pulse.read a = none ∧ State.reset.qmem.read a = none) ∧
  State.reset.cfg = { N := 280, T0H := 32, T0L := 68, T1H := 64, T1L := 48, QCAP := 16384 } ∧
  State.reset.cfg.PLEN = 6721 ∧ content State.reset = []

/-! ## Faults -/

/-- Every word presented on either port gets a response whose fault code is the one the table and its priority give, and only
that one (60_exceptions.md R201, R203; 30_encoding.md R82); with a fault, `flag` and `data` are 0 (R83). FAULT takes codes 1
to 5, and keeps the cause it holds. -/
def Obligations.FaultCodeOfEveryCommand : Prop :=
  ∀ (s : State) (p : Port) (w : Word), parametersValid s.cfg = true →
    ∃ t r, present p w s = .next t ∧ responseOn p t = some r ∧ r.fault = expectedCode p w s ∧
      (r.fault ≠ 0 → r.flag = false ∧ r.data = 0) ∧
      t.fault = (if s.fault ≠ 0 then s.fault else expectedCode p w s)

/-- A fault's effect in full (60_exceptions.md R200): nothing is written but FAULT, which takes the response's code, only from
0; from then on every command on either port finds the block halted. -/
def Obligations.RaisedFaultWritesOnlyItsCode : Prop :=
  ∀ (s t : State) (p : Port) (w : Word) (r : Response), present p w s = .next t → responseOn p t = some r →
    r.fault ≠ 0 → r.fault ≠ 6 →
    s.fault = 0 ∧ t.fault = r.fault ∧ OnlyWrites [.fault] s t ∧ r.flag = false ∧ r.data = 0 ∧
    ∀ p' w', ∃ u, present p' w' t = .next u ∧ FindsHalted (t.setPort p') u

/-- The halted state (60_exceptions.md R204): every command gets `{6, 0, 0}` and changes nothing; only reset leaves it, and
discards the queue's content and everything else. -/
def Obligations.HaltedUntilReset : Prop :=
  ∀ s t : State, s.fault ≠ 0 → step s = .next t →
    ((takeInput s).1 ≠ .reset → OnlyWrites [] s t) ∧
    (∀ p w, (takeInput s).1 = .command p w → responseOn p t = some { fault := 6, flag := false, data := 0 }) ∧
    ((takeInput s).1 = .reset → t.fault = 0 ∧ content t = [] ∧ t.crc = 0xFFFF ∧ t.pxWritten = false ∧
      ∀ a, t.pix.read a = none ∧ t.pulse.read a = none ∧ t.qmem.read a = none)

/-- The response record (30_encoding.md R83): its 37 bits; a command's response is on its own port, and not seen on the other;
the code is at most 6, and with one `flag` and `data` are 0. That the latest response stands in the state is the model's
choice (log entry 5). -/
def Obligations.ResponseOnOwnPortOnly : Prop :=
  (∀ r : Response, r.bits.toNat = r.fault.toNat * 2 ^ 33 + r.flag.toNat * 2 ^ 32 + r.data.toNat) ∧
  (∀ (s t : State) (p : Port) (w : Word), (takeInput s).1 = .command p w → step s = .next t →
    responseOn (otherPort p) t = responseOn (otherPort p) s ∧
    ∃ r, responseOn p t = some r ∧ r.fault.toNat ≤ 6 ∧ (r.fault ≠ 0 → r.flag = false ∧ r.data = 0))

/-- The only flag (10_state.md R27): it is 1 exactly when a `QENQ` stored its byte or a `QDEQ` returned one, that is when the
write pointer or the read pointer moved; every other operation answers 0. -/
def Obligations.FlagSaysByteMoved : Prop :=
  ∀ (i : Instr) (s t : State) (r : Response), Inv s → exec i s = .next t → responseOn s.port t = some r →
    (r.flag = true ↔ t.qwr ≠ s.qwr ∨ t.qrd ≠ s.qrd) ∧
    (r.flag = true → (t.qwr ≠ s.qwr ∧ ∃ b, i = .qenq b) ∨ (t.qrd ≠ s.qrd ∧ i = .qdeq))

/-- Every operation completes, and so does every step, whatever the state, as long as the parameters meet 00_scope.md R6
(20_memory.md R63, 70_reset_and_hazards.md R247); a block whose parameters break R6 has no meaning
(93_implementation_defined.md U4). -/
def Obligations.EveryOperationCompletes : Prop :=
  (∀ (i : Instr) (s : State), parametersValid s.cfg = true → ∃ t, exec i s = .next t) ∧
  (∀ s : State, parametersValid s.cfg = true → ∃ t, step s = .next t) ∧
  (∀ s : State, parametersValid s.cfg = false → step s = .refused .parametersOutsideR6)

/-- The parameter sets that have a meaning are those that meet 00_scope.md R6. -/
def Obligations.ParameterConstraints : Prop :=
  ∀ c : Config, parametersValid c = true ↔
    (1 ≤ c.N ∧ c.N ≤ 2730) ∧ (∀ d ∈ [c.T0H, c.T0L, c.T1H, c.T1L], 1 ≤ d ∧ d ≤ 65535) ∧
    ¬ (c.T0H = c.T1H ∧ c.T0L = c.T1L) ∧ 1 ≤ c.QCAP ∧ c.QCAP ≤ 2 ^ 30

/-! ## Whole-machine rules -/

/-- The write sets of 10_state.md R34, complete: whatever the outcome, an operation writes nothing but its pieces and FAULT,
and FAULT only from 0 to a code 1 to 5 (R28). -/
def Obligations.WriteSetsAreComplete : Prop :=
  ∀ (i : Instr) (s t : State), exec i s = .next t →
    OnlyWrites (.fault :: (match i with
      | .hsv2rgb _ _ _ => [.px]
      | .pxset _ _ _ => [.px]
      | .pixwr _ => [.pix]
      | .pixrd _ => [.px]
      | .fillall => [.pulse]
      | .filln _ => [.pulse]
      | .pulrd _ => []
      | .crcinit => [.crc]
      | .crcupd _ => [.crc]
      | .crcrd => []
      | .qdeq => [.qrd]
      | .qlen => []
      | .qenq _ => [.qmem, .qwr])) s t ∧
    KeepsOutside s t ∧ (t.fault = s.fault ∨ (s.fault = 0 ∧ 1 ≤ t.fault.toNat ∧ t.fault.toNat ≤ 5))

/-- What separates the two agents (10_state.md R34, the spec's own inference there: "[derived: from the operation rules of files
41 to 44]"; 60_exceptions.md R215): whatever word port P presents, it writes at most the queue's tail and FAULT; whatever word
port M presents, it never writes QWR or QMEM. -/
def Obligations.PortsKeepToTheirState : Prop :=
  (∀ (s t : State) (w : Word), (takeInput s).1 = .command .P w → step s = .next t →
    OnlyWrites [.fault, .qwr, .qmem] s t) ∧
  (∀ (s t : State) (w : Word), (takeInput s).1 = .command .M w → step s = .next t →
    OnlyWrites [.fault, .px, .crc, .qrd, .pix, .pulse] s t)

/-- The read sets of 10_state.md R34, by comparing two runs. (1) An operation of units HSV, ENC and CRC learns nothing of the
queue or of earlier responses. (2) An operation of unit Q learns nothing of PX, CRC, PIX, PULSE or of earlier responses. -/
def Obligations.UnitsLearnNothingOfEachOther : Prop :=
  (∀ (i : Instr) (s t : State) (qwr qrd : Nat) (qmem : Memory 8) (respM respP : Option Response),
    i ≠ .qdeq → i ≠ .qlen → (∀ b, i ≠ .qenq b) → exec i s = .next t →
    ∃ t', exec i { s with qwr := qwr, qrd := qrd, qmem := qmem, respM := respM, respP := respP } = .next t' ∧
      t' = { t with qwr := qwr, qrd := qrd, qmem := qmem,
                    respM := if s.port = .M then t.respM else respM, respP := if s.port = .P then t.respP else respP }) ∧
  (∀ (i : Instr) (s t : State) (px : Pixel) (written : Bool) (crc : BitVec 16) (pix : Memory 24) (pulse : Memory 32)
      (respM respP : Option Response),
    (i = .qdeq ∨ i = .qlen ∨ ∃ b, i = .qenq b) → exec i s = .next t →
    ∃ t', exec i { s with px := px, pxWritten := written, crc := crc, pix := pix, pulse := pulse,
                          respM := respM, respP := respP } = .next t' ∧
      t' = { t with px := px, pxWritten := written, crc := crc, pix := pix, pulse := pulse,
                    respM := if s.port = .M then t.respM else respM, respP := if s.port = .P then t.respP else respP })

/-- Operations that may be repeated (20_memory.md R56, the spec's own inference: "[derived: from the operation rules of files 41
to 44]"): done again straight after, they leave the very same state, given that
what they read has been written. -/
def Obligations.RepeatableOperationsAreIdempotent : Prop :=
  ∀ (i : Instr) (s t : State), exec i s = .next t → s.fault = 0 → t.fault = 0 →
    ((∃ r g b, i = .pxset r g b) ∨ i = .crcinit ∨ i = .crcrd ∨ i = .qlen ∨
      (∃ idx, i = .pixwr idx ∧ s.pxWritten = true) ∨
      (∃ idx v, i = .pulrd idx ∧ s.pulse.read idx = some v) ∨
      (∃ k, (i = .filln k ∨ (i = .fillall ∧ k = s.cfg.N)) ∧ ∀ a, a < k → ∃ v, s.pix.read a = some v)) →
    exec i t = .next t

/-- No step changes the parameters (00_scope.md R5). -/
def Obligations.ParametersNeverChange : Prop :=
  ∀ s t : State, step s = .next t → t.cfg = s.cfg

/-- The state after reset meets the block's invariant (10_state.md R41; log entry 1 for the parameters, 9 for the arrays). -/
def Obligations.InvariantHoldsAtReset : Prop := Inv State.reset

/-- Every step keeps the block's invariant: pointers, occupancy and FAULT in their ranges, the three arrays in canonical form
inside their spaces, every slot of the queue's content stored (10_state.md R26, R32, R41, the spec's own inference: "[derived:
from rules R181, R184 of 44_bytequeue.md and rule R200 of 60_exceptions.md]"; the form of the arrays is log entry 9). -/
def Obligations.StepKeepsInvariant : Prop :=
  ∀ s t : State, Inv s → step s = .next t → Inv t
end

