-- ==== Sys2Proof/Laws/PerInstr.lean ====
section
/-! SUPPORT. Laws of the encoding, one lemma per instruction. `OpcodeMap`: the word the encoder gives a well-formed
instruction is a word of its row in the opcode map (30_encoding.md R86). -/

namespace Sys2Proof.Laws

/-- `field` in plain arithmetic. -/
theorem field_eq (w : Word) (lo len : Nat) : field w lo len = w.toNat / 2 ^ lo % 2 ^ len := rfl

/-- The number of the word the encoder gives. -/
theorem encode_toNat (i : Instr) : (encode i).toNat = (i.op * 2 ^ 28 + i.operandBits) % 2 ^ 32 := by
  simp [encode, BitVec.toNat_ofNat]

/-- Masking with ones from bit `lo` up clears the bits below, and only them. -/
theorem and_highMask (w : Word) (lo : Nat) (hlo : lo ≤ 32) :
    w &&& BitVec.ofNat 32 (2 ^ 32 - 2 ^ lo) = BitVec.ofNat 32 (w.toNat / 2 ^ lo * 2 ^ lo) := by
  have hmask : BitVec.ofNat 32 (2 ^ 32 - 2 ^ lo) = BitVec.allOnes 32 <<< lo := by
    apply BitVec.eq_of_toNat_eq
    interval_cases lo <;> rfl
  have hw : BitVec.ofNat 32 (w.toNat / 2 ^ lo * 2 ^ lo) = (w >>> lo) <<< lo := by
    apply BitVec.eq_of_toNat_eq
    simp [BitVec.toNat_shiftLeft, BitVec.toNat_ushiftRight, Nat.shiftLeft_eq, Nat.shiftRight_eq_div_pow]
  rw [hmask, hw]
  apply BitVec.eq_of_getLsbD_eq
  intro k hk
  rw [BitVec.getLsbD_and, BitVec.getLsbD_shiftLeft, BitVec.getLsbD_shiftLeft, BitVec.getLsbD_allOnes,
    BitVec.getLsbD_ushiftRight]
  by_cases h : k < lo
  · simp [h]
  · have e : lo + (k - lo) = k := by omega
    have hlt : k - lo < 32 := by omega
    simp [h, hk, e, hlt]

namespace OpcodeMap

/-- The word of a well-formed instruction matches its row: `(encode i & mask) == match` (30_encoding.md R86). -/
def Statement (i : Instr) : Prop := i.wellFormed = true → encode i &&& i.maskWord = i.matchWord

/-- A row whose operands lie below bit `lo`. -/
theorem masked (op lo : Nat) (mask pattern : Word) {x : Nat} (hlo : lo ≤ 28) (hmask : mask = BitVec.ofNat 32 (2 ^ 32 - 2 ^ lo))
    (hpattern : pattern = BitVec.ofNat 32 (op * 2 ^ 28)) (hop : op < 16) (hx : x < 2 ^ lo) :
    BitVec.ofNat 32 (op * 2 ^ 28 + x) &&& mask = pattern := by
  have hdvd : 2 ^ 28 = 2 ^ (28 - lo) * 2 ^ lo := by rw [← Nat.pow_add]; congr 1; omega
  have hpow : 2 ^ lo ≤ 2 ^ 28 := Nat.pow_le_pow_right (by decide) hlo
  rw [hmask, hpattern, and_highMask _ _ (by omega), BitVec.toNat_ofNat, Nat.mod_eq_of_lt (by omega)]
  have : (op * 2 ^ 28 + x) / 2 ^ lo = op * 2 ^ (28 - lo) := by
    rw [hdvd, ← Nat.mul_assoc, Nat.mul_comm, Nat.mul_add_div (Nat.two_pow_pos lo), Nat.div_eq_of_lt hx, Nat.add_zero]
  rw [this, Nat.mul_assoc, ← hdvd]

theorem hsv2rgb (hue sat val : Nat) : Statement (.hsv2rgb hue sat val) := by
  intro h
  simp only [Instr.wellFormed, Bool.and_eq_true, decide_eq_true_eq] at h
  exact masked 0x1 28 0xF0000000 0x10000000 (by decide) (by decide) (by decide) (by decide) (by simp only [Instr.operandBits]; omega)

theorem pxset (r g b : Byte) : Statement (.pxset r g b) := by
  intro _
  have := r.isLt; have := g.isLt; have := b.isLt
  exact masked 0x2 24 0xFF000000 0x20000000 (by decide) (by decide) (by decide) (by decide) (by simp only [Instr.operandBits]; omega)

theorem pixwr (idx : Nat) : Statement (.pixwr idx) := by
  intro h
  exact masked 0x3 12 0xFFFFF000 0x30000000 (by decide) (by decide) (by decide) (by decide) (by simpa [Instr.wellFormed, Instr.operandBits] using h)

theorem pixrd (idx : Nat) : Statement (.pixrd idx) := by
  intro h
  exact masked 0x4 12 0xFFFFF000 0x40000000 (by decide) (by decide) (by decide) (by decide) (by simpa [Instr.wellFormed, Instr.operandBits] using h)

theorem fillall : Statement .fillall := by
  intro _
  exact masked 0x5 0 0xFFFFFFFF 0x50000000 (by decide) (by decide) (by decide) (by decide) (by decide)

theorem filln (k : Nat) : Statement (.filln k) := by
  intro h
  exact masked 0x6 12 0xFFFFF000 0x60000000 (by decide) (by decide) (by decide) (by decide) (by simpa [Instr.wellFormed, Instr.operandBits] using h)

theorem pulrd (idx : Nat) : Statement (.pulrd idx) := by
  intro h
  exact masked 0x7 16 0xFFFF0000 0x70000000 (by decide) (by decide) (by decide) (by decide) (by simpa [Instr.wellFormed, Instr.operandBits] using h)

theorem crcinit : Statement .crcinit := by
  intro _
  exact masked 0x8 0 0xFFFFFFFF 0x80000000 (by decide) (by decide) (by decide) (by decide) (by decide)

theorem crcupd (byte : Byte) : Statement (.crcupd byte) := by
  intro _
  exact masked 0x9 8 0xFFFFFF00 0x90000000 (by decide) (by decide) (by decide) (by decide) byte.isLt

theorem crcrd : Statement .crcrd := by
  intro _
  exact masked 0xA 0 0xFFFFFFFF 0xA0000000 (by decide) (by decide) (by decide) (by decide) (by decide)

theorem qdeq : Statement .qdeq := by
  intro _
  exact masked 0xB 0 0xFFFFFFFF 0xB0000000 (by decide) (by decide) (by decide) (by decide) (by decide)

theorem qlen : Statement .qlen := by
  intro _
  exact masked 0xC 0 0xFFFFFFFF 0xC0000000 (by decide) (by decide) (by decide) (by decide) (by decide)

theorem qenq (byte : Byte) : Statement (.qenq byte) := by
  intro _
  exact masked 0xD 8 0xFFFFFF00 0xD0000000 (by decide) (by decide) (by decide) (by decide) byte.isLt

end OpcodeMap

end Sys2Proof.Laws
end

