-- ==== Sys2Proof/Laws/Decode.lean ====
section
/-! SUPPORT. What the decoder can answer, said once, and its fields and reserved bits in plain arithmetic. -/

namespace Sys2Proof.Laws

theorem op_lt (w : Word) : w.toNat / 2 ^ 28 < 16 := by have := w.isLt; omega

theorem opField_eq (w : Word) : opField w = w.toNat / 2 ^ 28 := by
  unfold opField field; have := w.isLt; omega

theorem field_lt (w : Word) (lo len : Nat) : field w lo len < 2 ^ len := Nat.mod_lt _ (Nat.two_pow_pos _)

theorem byteField_eq (w : Word) (lo : Nat) : byteField w lo = BitVec.ofNat 8 (w.toNat / 2 ^ lo) := by
  apply BitVec.eq_of_toNat_eq
  simp [byteField, field]

theorem byteField_toNat (w : Word) (lo : Nat) : (byteField w lo).toNat = w.toNat / 2 ^ lo % 2 ^ 8 := by
  simp [byteField, field]

/-- Masking with ones from bit `lo` to bit 27 keeps exactly those bits. -/
theorem and_midMask (w : Word) (lo : Nat) (hlo : lo ≤ 28) :
    (w &&& BitVec.ofNat 32 (2 ^ 28 - 2 ^ lo)).toNat = w.toNat / 2 ^ lo % 2 ^ (28 - lo) * 2 ^ lo := by
  have hmask : BitVec.ofNat 32 (2 ^ 28 - 2 ^ lo) = (BitVec.allOnes 32 <<< lo) &&& (BitVec.allOnes 32 >>> 4) := by
    apply BitVec.eq_of_toNat_eq
    interval_cases lo <;> rfl
  have hw : BitVec.ofNat 32 (w.toNat / 2 ^ lo % 2 ^ (28 - lo) * 2 ^ lo) = ((w >>> lo) <<< (lo + 4)) >>> 4 := by
    apply BitVec.eq_of_toNat_eq
    have := w.isLt
    simp only [BitVec.toNat_ofNat, BitVec.toNat_shiftLeft, BitVec.toNat_ushiftRight, Nat.shiftLeft_eq,
      Nat.shiftRight_eq_div_pow]
    interval_cases lo <;> omega
  have h : w &&& BitVec.ofNat 32 (2 ^ 28 - 2 ^ lo) = BitVec.ofNat 32 (w.toNat / 2 ^ lo % 2 ^ (28 - lo) * 2 ^ lo) := by
    rw [hmask, hw]
    apply BitVec.eq_of_getLsbD_eq
    intro k hk
    simp only [BitVec.getLsbD_and, BitVec.getLsbD_shiftLeft, BitVec.getLsbD_allOnes, BitVec.getLsbD_ushiftRight]
    by_cases hl : k < lo
    · have hl' : 4 + k < lo + 4 := by omega
      simp [hl, hl']
    · by_cases h4 : 4 + k < 32
      · have e : lo + (4 + k - (lo + 4)) = k := by omega
        have hlt : k - lo < 32 := by omega
        have hn : ¬ 4 + k < lo + 4 := by omega
        simp [hl, hk, e, hlt, h4, hn]
      · simp [h4]
  have hlt : w.toNat / 2 ^ lo % 2 ^ (28 - lo) < 2 ^ (28 - lo) := Nat.mod_lt _ (Nat.two_pow_pos _)
  have hpow : 2 ^ (28 - lo) * 2 ^ lo = 2 ^ 28 := by rw [← Nat.pow_add]; congr 1; omega
  have : w.toNat / 2 ^ lo % 2 ^ (28 - lo) * 2 ^ lo < 2 ^ 28 := by
    rw [← hpow]; exact Nat.mul_lt_mul_of_pos_right hlt (Nat.two_pow_pos _)
  rw [h, BitVec.toNat_ofNat]
  exact Nat.mod_eq_of_lt (by omega)

/-- The reserved bits of a format, as a mask. -/
theorem reservedClear_iff (w mask : Word) (f : Format) (hmask : mask = BitVec.ofNat 32 (2 ^ 28 - 2 ^ reservedFrom f)) :
    reservedClear f w = true ↔ w &&& mask = 0 := by
  have h := and_midMask w (reservedFrom f) (by cases f <;> decide)
  rw [hmask, ← BitVec.toNat_inj, h]
  have : 2 ^ reservedFrom f ≠ 0 := (Nat.two_pow_pos _).ne'
  simp [reservedClear, field]

/-- The decoder on a word of an assigned operation code. -/
theorem decode_of_row {w : Word} {f : Format} {i : Instr} (h : rowOf w (opField w) = some (f, i)) :
    decode w = if reservedClear f w then .ok i else .error .reservedBit := by
  rw [decode, h]

/-- Everything the decoder can answer. -/
theorem decode_cases (w : Word) :
    (rowOf w (opField w) = none ∧ decode w = .error .unassignedOperation) ∨
    ∃ f i, rowOf w (opField w) = some (f, i) ∧
      ((reservedClear f w = true ∧ decode w = .ok i) ∨ (reservedClear f w = false ∧ decode w = .error .reservedBit)) := by
  cases h : rowOf w (opField w) with
  | none => exact .inl ⟨rfl, by rw [decode, h]⟩
  | some row =>
    obtain ⟨f, i⟩ := row
    refine .inr ⟨f, i, rfl, ?_⟩
    rw [decode_of_row h]
    cases hc : reservedClear f w <;> simp

/-- A word that decodes has the row of its operation code, with the reserved bits of its format clear. -/
theorem row_of_decode {w : Word} {i : Instr} (h : decode w = .ok i) :
    ∃ f, rowOf w (opField w) = some (f, i) ∧ reservedClear f w = true := by
  rcases decode_cases w with ⟨_, hd⟩ | ⟨f, j, hr, ⟨hc, hd⟩ | ⟨_, hd⟩⟩ <;> rw [hd] at h
  · simp at h
  · obtain rfl : j = i := by simpa using h
    exact ⟨f, hr, hc⟩
  · simp at h

end Sys2Proof.Laws
end

