-- ==== Sys2Proof/Laws/Memory.lean ====
section
/-! SUPPORT. The laws of the three address spaces: reading after a write, and that a write keeps the canonical form. -/

namespace Sys2Proof.Machine

variable {width : Nat}

@[simp] theorem Memory.read_nil (i : Nat) : Memory.read ([] : Memory width) i = none := rfl

theorem Memory.read_cons (j : Nat) (v : BitVec width) (m : Memory width) (i : Nat) :
    Memory.read ((j, v) :: m) i = if i = j then some v else Memory.read m i := rfl

theorem Memory.read_append (m₁ m₂ : Memory width) (i : Nat) :
    Memory.read (m₁ ++ m₂) i = (Memory.read m₁ i).or (Memory.read m₂ i) := by
  induction m₁ with
  | nil => rfl
  | cons e m ih =>
    obtain ⟨j, v⟩ := e
    simp only [List.cons_append, Memory.read_cons, ih]
    split <;> simp

/-- Keeping only entries that satisfy a test on the index. -/
theorem Memory.read_filter (p : Nat → Bool) (m : Memory width) (i : Nat) :
    Memory.read (List.filter (fun e => p e.1) m) i = if p i then Memory.read m i else none := by
  induction m with
  | nil => simp
  | cons e m ih =>
    obtain ⟨j, v⟩ := e
    by_cases hp : p j <;> by_cases hij : i = j <;> by_cases hi : p i <;>
      simp_all [Memory.read_cons]

theorem Memory.read_elementsFrom (i : Nat) (vs : List (BitVec width)) (a : Nat) :
    Memory.read (elementsFrom i vs) a = if i ≤ a then vs[a - i]? else none := by
  induction vs generalizing i with
  | nil => simp [elementsFrom]
  | cons v vs ih =>
    simp only [elementsFrom, Memory.read_cons, ih]
    by_cases h : a = i
    · simp [h]
    · by_cases hle : i ≤ a
      · have e : a - i = (a - (i + 1)) + 1 := by omega
        have h1 : i + 1 ≤ a := by omega
        simp [h, hle, h1, e]
      · have h1 : ¬ i + 1 ≤ a := by omega
        simp [h, hle, h1]

/-- The one law of `MemWrite`: the elements written read as written, every other one reads as before. -/
theorem Memory.read_write (m : Memory width) (i : Nat) (vs : List (BitVec width)) (a : Nat) :
    (m.write i vs).read a = if i ≤ a ∧ a < i + vs.length then vs[a - i]? else m.read a := by
  unfold Memory.write
  rw [Memory.read_append, Memory.read_append, Memory.read_elementsFrom,
    Memory.read_filter (fun j => decide (j < i)), Memory.read_filter (fun j => decide (i + vs.length ≤ j))]
  by_cases h1 : a < i
  · have h2 : ¬ i ≤ a := by omega
    have h3 : ¬ i + vs.length ≤ a := by omega
    simp [h1, h2, h3]
  · have h2 : i ≤ a := by omega
    by_cases h3 : a < i + vs.length
    · have h4 : ¬ i + vs.length ≤ a := by omega
      simp [h1, h2, h3, h4]
    · have h4 : i + vs.length ≤ a := by omega
      have h5 : vs.length ≤ a - i := by omega
      simp [h1, h2, h3, h4, List.getElem?_eq_none h5]

theorem Memory.read_write_single (m : Memory width) (i : Nat) (v : BitVec width) (a : Nat) :
    (m.write i [v]).read a = if a = i then some v else m.read a := by
  rw [Memory.read_write]
  by_cases h : a = i
  · subst h; simp
  · have : ¬ (i ≤ a ∧ a < i + [v].length) := by simp only [List.length_singleton]; omega
    rw [if_neg this, if_neg h]

theorem Memory.risingFrom_mono {lo lo' : Nat} (h : lo' ≤ lo) {m : Memory width}
    (hm : Memory.risingFrom lo m = true) : Memory.risingFrom lo' m = true := by
  cases m with
  | nil => rfl
  | cons e m =>
    obtain ⟨j, v⟩ := e
    simp only [Memory.risingFrom, Bool.and_eq_true, decide_eq_true_eq] at hm ⊢
    exact ⟨by omega, hm.2⟩

theorem Memory.risingFrom_filter (p : Nat × BitVec width → Bool) {lo : Nat} {m : Memory width}
    (hm : Memory.risingFrom lo m = true) : Memory.risingFrom lo (m.filter p) = true := by
  induction m generalizing lo with
  | nil => rfl
  | cons e m ih =>
    obtain ⟨j, v⟩ := e
    simp only [Memory.risingFrom, Bool.and_eq_true, decide_eq_true_eq] at hm
    rw [List.filter_cons]
    split
    · simp only [Memory.risingFrom, Bool.and_eq_true, decide_eq_true_eq]
      exact ⟨hm.1, ih hm.2⟩
    · exact Memory.risingFrom_mono (by omega) (ih hm.2)

/-- Two rising pieces, the second all above the first, are rising together. -/
theorem Memory.risingFrom_append {lo mid : Nat} {m₁ m₂ : Memory width} (h₁ : Memory.risingFrom lo m₁ = true)
    (hb : ∀ e ∈ m₁, e.1 < mid) (hlo : lo ≤ mid) (h₂ : Memory.risingFrom mid m₂ = true) :
    Memory.risingFrom lo (m₁ ++ m₂) = true := by
  induction m₁ generalizing lo with
  | nil => exact Memory.risingFrom_mono hlo h₂
  | cons e m ih =>
    obtain ⟨j, v⟩ := e
    simp only [List.cons_append, Memory.risingFrom, Bool.and_eq_true, decide_eq_true_eq] at h₁ ⊢
    have := hb (j, v) (by simp)
    exact ⟨h₁.1, ih h₁.2 (fun e he => hb e (by simp [he])) (by simpa using this)⟩

theorem Memory.risingFrom_of_le {lo lo' : Nat} {m : Memory width} (hm : Memory.risingFrom lo m = true)
    (hall : ∀ e ∈ m, lo' ≤ e.1) : Memory.risingFrom lo' m = true := by
  cases m with
  | nil => rfl
  | cons e m =>
    obtain ⟨j, v⟩ := e
    simp only [Memory.risingFrom, Bool.and_eq_true, decide_eq_true_eq] at hm ⊢
    exact ⟨hall (j, v) (by simp), hm.2⟩

theorem Memory.risingFrom_elementsFrom (i : Nat) (vs : List (BitVec width)) :
    Memory.risingFrom i (elementsFrom i vs) = true := by
  induction vs generalizing i with
  | nil => rfl
  | cons v vs ih => simp [elementsFrom, Memory.risingFrom, ih]

theorem Memory.mem_elementsFrom_bounds {i : Nat} {vs : List (BitVec width)} {e : Nat × BitVec width}
    (he : e ∈ elementsFrom i vs) : i ≤ e.1 ∧ e.1 < i + vs.length := by
  induction vs generalizing i with
  | nil => simp [elementsFrom] at he
  | cons v vs ih =>
    simp only [elementsFrom, List.mem_cons] at he
    rcases he with rfl | he
    · simp
    · have := ih he
      simp only [List.length_cons]
      omega

theorem Memory.wf_iff (size : Nat) (m : Memory width) :
    Memory.wf size m = true ↔ Memory.risingFrom 0 m = true ∧ ∀ e ∈ m, e.1 < size := by
  simp [Memory.wf]

@[simp] theorem Memory.wf_nil (size : Nat) : Memory.wf size ([] : Memory width) = true := rfl

/-- Every memory operation keeps the canonical form: the one writing operation does, for indices inside the space. -/
theorem Memory.wf_write {size i : Nat} {m : Memory width} {vs : List (BitVec width)}
    (hm : Memory.wf size m = true) (hi : i + vs.length ≤ size) : Memory.wf size (m.write i vs) = true := by
  rw [Memory.wf_iff] at hm ⊢
  obtain ⟨hrise, hall⟩ := hm
  unfold Memory.write
  constructor
  · refine Memory.risingFrom_append (mid := i + vs.length) ?_ ?_ (Nat.zero_le _) ?_
    · refine Memory.risingFrom_append (mid := i) (Memory.risingFrom_filter _ hrise) ?_ (Nat.zero_le _)
        (Memory.risingFrom_elementsFrom i vs)
      intro e he
      simpa using (List.mem_filter.mp he).2
    · intro e he
      rcases List.mem_append.mp he with he | he
      · have : e.1 < i := by simpa using (List.mem_filter.mp he).2
        omega
      · exact (Memory.mem_elementsFrom_bounds he).2
    · refine Memory.risingFrom_of_le (Memory.risingFrom_filter _ hrise) ?_
      intro e he
      simpa using (List.mem_filter.mp he).2
  · intro e he
    rcases List.mem_append.mp he with he | he
    · rcases List.mem_append.mp he with he | he
      · exact hall e (List.mem_filter.mp he).1
      · have := (Memory.mem_elementsFrom_bounds he).2
        omega
    · exact hall e (List.mem_filter.mp he).1

end Sys2Proof.Machine
end

