-- ==== Sys2Proof/Laws/State.lean ====
section
/-! SUPPORT. One lemma per field per update of the state, so that no later proof unfolds a record update. -/

namespace Sys2Proof.Machine

variable (s : State)

@[simp] theorem State.setPx_cfg (v : Pixel) : (s.setPx v).cfg = s.cfg := rfl
@[simp] theorem State.setPx_px (v : Pixel) : (s.setPx v).px = v := rfl
@[simp] theorem State.setPx_pxWritten (v : Pixel) : (s.setPx v).pxWritten = true := rfl
@[simp] theorem State.setPx_crc (v : Pixel) : (s.setPx v).crc = s.crc := rfl
@[simp] theorem State.setPx_qwr (v : Pixel) : (s.setPx v).qwr = s.qwr := rfl
@[simp] theorem State.setPx_qrd (v : Pixel) : (s.setPx v).qrd = s.qrd := rfl
@[simp] theorem State.setPx_fault (v : Pixel) : (s.setPx v).fault = s.fault := rfl
@[simp] theorem State.setPx_pix (v : Pixel) : (s.setPx v).pix = s.pix := rfl
@[simp] theorem State.setPx_pulse (v : Pixel) : (s.setPx v).pulse = s.pulse := rfl
@[simp] theorem State.setPx_qmem (v : Pixel) : (s.setPx v).qmem = s.qmem := rfl
@[simp] theorem State.setPx_port (v : Pixel) : (s.setPx v).port = s.port := rfl
@[simp] theorem State.setPx_respM (v : Pixel) : (s.setPx v).respM = s.respM := rfl
@[simp] theorem State.setPx_respP (v : Pixel) : (s.setPx v).respP = s.respP := rfl
@[simp] theorem State.setPx_inbox (v : Pixel) : (s.setPx v).inbox = s.inbox := rfl
@[simp] theorem State.setPx_draws (v : Pixel) : (s.setPx v).draws = s.draws := rfl

@[simp] theorem State.setCrc_cfg (v : BitVec 16) : (s.setCrc v).cfg = s.cfg := rfl
@[simp] theorem State.setCrc_px (v : BitVec 16) : (s.setCrc v).px = s.px := rfl
@[simp] theorem State.setCrc_pxWritten (v : BitVec 16) : (s.setCrc v).pxWritten = s.pxWritten := rfl
@[simp] theorem State.setCrc_crc (v : BitVec 16) : (s.setCrc v).crc = v := rfl
@[simp] theorem State.setCrc_qwr (v : BitVec 16) : (s.setCrc v).qwr = s.qwr := rfl
@[simp] theorem State.setCrc_qrd (v : BitVec 16) : (s.setCrc v).qrd = s.qrd := rfl
@[simp] theorem State.setCrc_fault (v : BitVec 16) : (s.setCrc v).fault = s.fault := rfl
@[simp] theorem State.setCrc_pix (v : BitVec 16) : (s.setCrc v).pix = s.pix := rfl
@[simp] theorem State.setCrc_pulse (v : BitVec 16) : (s.setCrc v).pulse = s.pulse := rfl
@[simp] theorem State.setCrc_qmem (v : BitVec 16) : (s.setCrc v).qmem = s.qmem := rfl
@[simp] theorem State.setCrc_port (v : BitVec 16) : (s.setCrc v).port = s.port := rfl
@[simp] theorem State.setCrc_respM (v : BitVec 16) : (s.setCrc v).respM = s.respM := rfl
@[simp] theorem State.setCrc_respP (v : BitVec 16) : (s.setCrc v).respP = s.respP := rfl
@[simp] theorem State.setCrc_inbox (v : BitVec 16) : (s.setCrc v).inbox = s.inbox := rfl
@[simp] theorem State.setCrc_draws (v : BitVec 16) : (s.setCrc v).draws = s.draws := rfl

@[simp] theorem State.setQwr_cfg (v : Nat) : (s.setQwr v).cfg = s.cfg := rfl
@[simp] theorem State.setQwr_px (v : Nat) : (s.setQwr v).px = s.px := rfl
@[simp] theorem State.setQwr_pxWritten (v : Nat) : (s.setQwr v).pxWritten = s.pxWritten := rfl
@[simp] theorem State.setQwr_crc (v : Nat) : (s.setQwr v).crc = s.crc := rfl
@[simp] theorem State.setQwr_qwr (v : Nat) : (s.setQwr v).qwr = v := rfl
@[simp] theorem State.setQwr_qrd (v : Nat) : (s.setQwr v).qrd = s.qrd := rfl
@[simp] theorem State.setQwr_fault (v : Nat) : (s.setQwr v).fault = s.fault := rfl
@[simp] theorem State.setQwr_pix (v : Nat) : (s.setQwr v).pix = s.pix := rfl
@[simp] theorem State.setQwr_pulse (v : Nat) : (s.setQwr v).pulse = s.pulse := rfl
@[simp] theorem State.setQwr_qmem (v : Nat) : (s.setQwr v).qmem = s.qmem := rfl
@[simp] theorem State.setQwr_port (v : Nat) : (s.setQwr v).port = s.port := rfl
@[simp] theorem State.setQwr_respM (v : Nat) : (s.setQwr v).respM = s.respM := rfl
@[simp] theorem State.setQwr_respP (v : Nat) : (s.setQwr v).respP = s.respP := rfl
@[simp] theorem State.setQwr_inbox (v : Nat) : (s.setQwr v).inbox = s.inbox := rfl
@[simp] theorem State.setQwr_draws (v : Nat) : (s.setQwr v).draws = s.draws := rfl

@[simp] theorem State.setQrd_cfg (v : Nat) : (s.setQrd v).cfg = s.cfg := rfl
@[simp] theorem State.setQrd_px (v : Nat) : (s.setQrd v).px = s.px := rfl
@[simp] theorem State.setQrd_pxWritten (v : Nat) : (s.setQrd v).pxWritten = s.pxWritten := rfl
@[simp] theorem State.setQrd_crc (v : Nat) : (s.setQrd v).crc = s.crc := rfl
@[simp] theorem State.setQrd_qwr (v : Nat) : (s.setQrd v).qwr = s.qwr := rfl
@[simp] theorem State.setQrd_qrd (v : Nat) : (s.setQrd v).qrd = v := rfl
@[simp] theorem State.setQrd_fault (v : Nat) : (s.setQrd v).fault = s.fault := rfl
@[simp] theorem State.setQrd_pix (v : Nat) : (s.setQrd v).pix = s.pix := rfl
@[simp] theorem State.setQrd_pulse (v : Nat) : (s.setQrd v).pulse = s.pulse := rfl
@[simp] theorem State.setQrd_qmem (v : Nat) : (s.setQrd v).qmem = s.qmem := rfl
@[simp] theorem State.setQrd_port (v : Nat) : (s.setQrd v).port = s.port := rfl
@[simp] theorem State.setQrd_respM (v : Nat) : (s.setQrd v).respM = s.respM := rfl
@[simp] theorem State.setQrd_respP (v : Nat) : (s.setQrd v).respP = s.respP := rfl
@[simp] theorem State.setQrd_inbox (v : Nat) : (s.setQrd v).inbox = s.inbox := rfl
@[simp] theorem State.setQrd_draws (v : Nat) : (s.setQrd v).draws = s.draws := rfl

@[simp] theorem State.setFault_cfg (v : BitVec 4) : (s.setFault v).cfg = s.cfg := rfl
@[simp] theorem State.setFault_px (v : BitVec 4) : (s.setFault v).px = s.px := rfl
@[simp] theorem State.setFault_pxWritten (v : BitVec 4) : (s.setFault v).pxWritten = s.pxWritten := rfl
@[simp] theorem State.setFault_crc (v : BitVec 4) : (s.setFault v).crc = s.crc := rfl
@[simp] theorem State.setFault_qwr (v : BitVec 4) : (s.setFault v).qwr = s.qwr := rfl
@[simp] theorem State.setFault_qrd (v : BitVec 4) : (s.setFault v).qrd = s.qrd := rfl
@[simp] theorem State.setFault_fault (v : BitVec 4) : (s.setFault v).fault = v := rfl
@[simp] theorem State.setFault_pix (v : BitVec 4) : (s.setFault v).pix = s.pix := rfl
@[simp] theorem State.setFault_pulse (v : BitVec 4) : (s.setFault v).pulse = s.pulse := rfl
@[simp] theorem State.setFault_qmem (v : BitVec 4) : (s.setFault v).qmem = s.qmem := rfl
@[simp] theorem State.setFault_port (v : BitVec 4) : (s.setFault v).port = s.port := rfl
@[simp] theorem State.setFault_respM (v : BitVec 4) : (s.setFault v).respM = s.respM := rfl
@[simp] theorem State.setFault_respP (v : BitVec 4) : (s.setFault v).respP = s.respP := rfl
@[simp] theorem State.setFault_inbox (v : BitVec 4) : (s.setFault v).inbox = s.inbox := rfl
@[simp] theorem State.setFault_draws (v : BitVec 4) : (s.setFault v).draws = s.draws := rfl

@[simp] theorem State.writePix_cfg (i : Nat) (vs : List Pixel) : (s.writePix i vs).cfg = s.cfg := rfl
@[simp] theorem State.writePix_px (i : Nat) (vs : List Pixel) : (s.writePix i vs).px = s.px := rfl
@[simp] theorem State.writePix_pxWritten (i : Nat) (vs : List Pixel) : (s.writePix i vs).pxWritten = s.pxWritten := rfl
@[simp] theorem State.writePix_crc (i : Nat) (vs : List Pixel) : (s.writePix i vs).crc = s.crc := rfl
@[simp] theorem State.writePix_qwr (i : Nat) (vs : List Pixel) : (s.writePix i vs).qwr = s.qwr := rfl
@[simp] theorem State.writePix_qrd (i : Nat) (vs : List Pixel) : (s.writePix i vs).qrd = s.qrd := rfl
@[simp] theorem State.writePix_fault (i : Nat) (vs : List Pixel) : (s.writePix i vs).fault = s.fault := rfl
@[simp] theorem State.writePix_pix (i : Nat) (vs : List Pixel) : (s.writePix i vs).pix = s.pix.write i vs := rfl
@[simp] theorem State.writePix_pulse (i : Nat) (vs : List Pixel) : (s.writePix i vs).pulse = s.pulse := rfl
@[simp] theorem State.writePix_qmem (i : Nat) (vs : List Pixel) : (s.writePix i vs).qmem = s.qmem := rfl
@[simp] theorem State.writePix_port (i : Nat) (vs : List Pixel) : (s.writePix i vs).port = s.port := rfl
@[simp] theorem State.writePix_respM (i : Nat) (vs : List Pixel) : (s.writePix i vs).respM = s.respM := rfl
@[simp] theorem State.writePix_respP (i : Nat) (vs : List Pixel) : (s.writePix i vs).respP = s.respP := rfl
@[simp] theorem State.writePix_inbox (i : Nat) (vs : List Pixel) : (s.writePix i vs).inbox = s.inbox := rfl
@[simp] theorem State.writePix_draws (i : Nat) (vs : List Pixel) : (s.writePix i vs).draws = s.draws := rfl

@[simp] theorem State.writePulse_cfg (i : Nat) (vs : List Desc) : (s.writePulse i vs).cfg = s.cfg := rfl
@[simp] theorem State.writePulse_px (i : Nat) (vs : List Desc) : (s.writePulse i vs).px = s.px := rfl
@[simp] theorem State.writePulse_pxWritten (i : Nat) (vs : List Desc) : (s.writePulse i vs).pxWritten = s.pxWritten := rfl
@[simp] theorem State.writePulse_crc (i : Nat) (vs : List Desc) : (s.writePulse i vs).crc = s.crc := rfl
@[simp] theorem State.writePulse_qwr (i : Nat) (vs : List Desc) : (s.writePulse i vs).qwr = s.qwr := rfl
@[simp] theorem State.writePulse_qrd (i : Nat) (vs : List Desc) : (s.writePulse i vs).qrd = s.qrd := rfl
@[simp] theorem State.writePulse_fault (i : Nat) (vs : List Desc) : (s.writePulse i vs).fault = s.fault := rfl
@[simp] theorem State.writePulse_pix (i : Nat) (vs : List Desc) : (s.writePulse i vs).pix = s.pix := rfl
@[simp] theorem State.writePulse_pulse (i : Nat) (vs : List Desc) : (s.writePulse i vs).pulse = s.pulse.write i vs := rfl
@[simp] theorem State.writePulse_qmem (i : Nat) (vs : List Desc) : (s.writePulse i vs).qmem = s.qmem := rfl
@[simp] theorem State.writePulse_port (i : Nat) (vs : List Desc) : (s.writePulse i vs).port = s.port := rfl
@[simp] theorem State.writePulse_respM (i : Nat) (vs : List Desc) : (s.writePulse i vs).respM = s.respM := rfl
@[simp] theorem State.writePulse_respP (i : Nat) (vs : List Desc) : (s.writePulse i vs).respP = s.respP := rfl
@[simp] theorem State.writePulse_inbox (i : Nat) (vs : List Desc) : (s.writePulse i vs).inbox = s.inbox := rfl
@[simp] theorem State.writePulse_draws (i : Nat) (vs : List Desc) : (s.writePulse i vs).draws = s.draws := rfl

@[simp] theorem State.writeQmem_cfg (i : Nat) (vs : List Byte) : (s.writeQmem i vs).cfg = s.cfg := rfl
@[simp] theorem State.writeQmem_px (i : Nat) (vs : List Byte) : (s.writeQmem i vs).px = s.px := rfl
@[simp] theorem State.writeQmem_pxWritten (i : Nat) (vs : List Byte) : (s.writeQmem i vs).pxWritten = s.pxWritten := rfl
@[simp] theorem State.writeQmem_crc (i : Nat) (vs : List Byte) : (s.writeQmem i vs).crc = s.crc := rfl
@[simp] theorem State.writeQmem_qwr (i : Nat) (vs : List Byte) : (s.writeQmem i vs).qwr = s.qwr := rfl
@[simp] theorem State.writeQmem_qrd (i : Nat) (vs : List Byte) : (s.writeQmem i vs).qrd = s.qrd := rfl
@[simp] theorem State.writeQmem_fault (i : Nat) (vs : List Byte) : (s.writeQmem i vs).fault = s.fault := rfl
@[simp] theorem State.writeQmem_pix (i : Nat) (vs : List Byte) : (s.writeQmem i vs).pix = s.pix := rfl
@[simp] theorem State.writeQmem_pulse (i : Nat) (vs : List Byte) : (s.writeQmem i vs).pulse = s.pulse := rfl
@[simp] theorem State.writeQmem_qmem (i : Nat) (vs : List Byte) : (s.writeQmem i vs).qmem = s.qmem.write i vs := rfl
@[simp] theorem State.writeQmem_port (i : Nat) (vs : List Byte) : (s.writeQmem i vs).port = s.port := rfl
@[simp] theorem State.writeQmem_respM (i : Nat) (vs : List Byte) : (s.writeQmem i vs).respM = s.respM := rfl
@[simp] theorem State.writeQmem_respP (i : Nat) (vs : List Byte) : (s.writeQmem i vs).respP = s.respP := rfl
@[simp] theorem State.writeQmem_inbox (i : Nat) (vs : List Byte) : (s.writeQmem i vs).inbox = s.inbox := rfl
@[simp] theorem State.writeQmem_draws (i : Nat) (vs : List Byte) : (s.writeQmem i vs).draws = s.draws := rfl

@[simp] theorem State.setPort_cfg (p : Port) : (s.setPort p).cfg = s.cfg := rfl
@[simp] theorem State.setPort_px (p : Port) : (s.setPort p).px = s.px := rfl
@[simp] theorem State.setPort_pxWritten (p : Port) : (s.setPort p).pxWritten = s.pxWritten := rfl
@[simp] theorem State.setPort_crc (p : Port) : (s.setPort p).crc = s.crc := rfl
@[simp] theorem State.setPort_qwr (p : Port) : (s.setPort p).qwr = s.qwr := rfl
@[simp] theorem State.setPort_qrd (p : Port) : (s.setPort p).qrd = s.qrd := rfl
@[simp] theorem State.setPort_fault (p : Port) : (s.setPort p).fault = s.fault := rfl
@[simp] theorem State.setPort_pix (p : Port) : (s.setPort p).pix = s.pix := rfl
@[simp] theorem State.setPort_pulse (p : Port) : (s.setPort p).pulse = s.pulse := rfl
@[simp] theorem State.setPort_qmem (p : Port) : (s.setPort p).qmem = s.qmem := rfl
@[simp] theorem State.setPort_port (p : Port) : (s.setPort p).port = p := rfl
@[simp] theorem State.setPort_respM (p : Port) : (s.setPort p).respM = s.respM := rfl
@[simp] theorem State.setPort_respP (p : Port) : (s.setPort p).respP = s.respP := rfl
@[simp] theorem State.setPort_inbox (p : Port) : (s.setPort p).inbox = s.inbox := rfl
@[simp] theorem State.setPort_draws (p : Port) : (s.setPort p).draws = s.draws := rfl

@[simp] theorem State.setInbox_cfg (l : List Input) : (s.setInbox l).cfg = s.cfg := rfl
@[simp] theorem State.setInbox_px (l : List Input) : (s.setInbox l).px = s.px := rfl
@[simp] theorem State.setInbox_pxWritten (l : List Input) : (s.setInbox l).pxWritten = s.pxWritten := rfl
@[simp] theorem State.setInbox_crc (l : List Input) : (s.setInbox l).crc = s.crc := rfl
@[simp] theorem State.setInbox_qwr (l : List Input) : (s.setInbox l).qwr = s.qwr := rfl
@[simp] theorem State.setInbox_qrd (l : List Input) : (s.setInbox l).qrd = s.qrd := rfl
@[simp] theorem State.setInbox_fault (l : List Input) : (s.setInbox l).fault = s.fault := rfl
@[simp] theorem State.setInbox_pix (l : List Input) : (s.setInbox l).pix = s.pix := rfl
@[simp] theorem State.setInbox_pulse (l : List Input) : (s.setInbox l).pulse = s.pulse := rfl
@[simp] theorem State.setInbox_qmem (l : List Input) : (s.setInbox l).qmem = s.qmem := rfl
@[simp] theorem State.setInbox_port (l : List Input) : (s.setInbox l).port = s.port := rfl
@[simp] theorem State.setInbox_respM (l : List Input) : (s.setInbox l).respM = s.respM := rfl
@[simp] theorem State.setInbox_respP (l : List Input) : (s.setInbox l).respP = s.respP := rfl
@[simp] theorem State.setInbox_inbox (l : List Input) : (s.setInbox l).inbox = l := rfl
@[simp] theorem State.setInbox_draws (l : List Input) : (s.setInbox l).draws = s.draws := rfl

@[simp] theorem State.setDraws_cfg (n : Nat) : (s.setDraws n).cfg = s.cfg := rfl
@[simp] theorem State.setDraws_px (n : Nat) : (s.setDraws n).px = s.px := rfl
@[simp] theorem State.setDraws_pxWritten (n : Nat) : (s.setDraws n).pxWritten = s.pxWritten := rfl
@[simp] theorem State.setDraws_crc (n : Nat) : (s.setDraws n).crc = s.crc := rfl
@[simp] theorem State.setDraws_qwr (n : Nat) : (s.setDraws n).qwr = s.qwr := rfl
@[simp] theorem State.setDraws_qrd (n : Nat) : (s.setDraws n).qrd = s.qrd := rfl
@[simp] theorem State.setDraws_fault (n : Nat) : (s.setDraws n).fault = s.fault := rfl
@[simp] theorem State.setDraws_pix (n : Nat) : (s.setDraws n).pix = s.pix := rfl
@[simp] theorem State.setDraws_pulse (n : Nat) : (s.setDraws n).pulse = s.pulse := rfl
@[simp] theorem State.setDraws_qmem (n : Nat) : (s.setDraws n).qmem = s.qmem := rfl
@[simp] theorem State.setDraws_port (n : Nat) : (s.setDraws n).port = s.port := rfl
@[simp] theorem State.setDraws_respM (n : Nat) : (s.setDraws n).respM = s.respM := rfl
@[simp] theorem State.setDraws_respP (n : Nat) : (s.setDraws n).respP = s.respP := rfl
@[simp] theorem State.setDraws_inbox (n : Nat) : (s.setDraws n).inbox = s.inbox := rfl
@[simp] theorem State.setDraws_draws (n : Nat) : (s.setDraws n).draws = n := rfl

@[simp] theorem State.respond_cfg (r : Response) : (s.respond r).cfg = s.cfg := rfl
@[simp] theorem State.respond_px (r : Response) : (s.respond r).px = s.px := rfl
@[simp] theorem State.respond_pxWritten (r : Response) : (s.respond r).pxWritten = s.pxWritten := rfl
@[simp] theorem State.respond_crc (r : Response) : (s.respond r).crc = s.crc := rfl
@[simp] theorem State.respond_qwr (r : Response) : (s.respond r).qwr = s.qwr := rfl
@[simp] theorem State.respond_qrd (r : Response) : (s.respond r).qrd = s.qrd := rfl
@[simp] theorem State.respond_fault (r : Response) : (s.respond r).fault = s.fault := rfl
@[simp] theorem State.respond_pix (r : Response) : (s.respond r).pix = s.pix := rfl
@[simp] theorem State.respond_pulse (r : Response) : (s.respond r).pulse = s.pulse := rfl
@[simp] theorem State.respond_qmem (r : Response) : (s.respond r).qmem = s.qmem := rfl
@[simp] theorem State.respond_port (r : Response) : (s.respond r).port = s.port := rfl
@[simp] theorem State.respond_respM (r : Response) : (s.respond r).respM = if s.port = .M then some r else s.respM := rfl
@[simp] theorem State.respond_respP (r : Response) : (s.respond r).respP = if s.port = .P then some r else s.respP := rfl
@[simp] theorem State.respond_inbox (r : Response) : (s.respond r).inbox = s.inbox := rfl
@[simp] theorem State.respond_draws (r : Response) : (s.respond r).draws = s.draws := rfl

@[simp] theorem resetBlock_cfg : (resetBlock s).cfg = s.cfg := rfl
@[simp] theorem resetBlock_inbox : (resetBlock s).inbox = s.inbox := rfl
@[simp] theorem resetBlock_draws : (resetBlock s).draws = s.draws := rfl
@[simp] theorem resetBlock_px : (resetBlock s).px = 0 := rfl
@[simp] theorem resetBlock_pxWritten : (resetBlock s).pxWritten = false := rfl
@[simp] theorem resetBlock_crc : (resetBlock s).crc = 0xFFFF := rfl
@[simp] theorem resetBlock_qwr : (resetBlock s).qwr = 0 := rfl
@[simp] theorem resetBlock_qrd : (resetBlock s).qrd = 0 := rfl
@[simp] theorem resetBlock_fault : (resetBlock s).fault = 0 := rfl
@[simp] theorem resetBlock_pix : (resetBlock s).pix = [] := rfl
@[simp] theorem resetBlock_pulse : (resetBlock s).pulse = [] := rfl
@[simp] theorem resetBlock_qmem : (resetBlock s).qmem = [] := rfl
@[simp] theorem resetBlock_port : (resetBlock s).port = .M := rfl
@[simp] theorem resetBlock_respM : (resetBlock s).respM = none := rfl
@[simp] theorem resetBlock_respP : (resetBlock s).respP = none := rfl

end Sys2Proof.Machine
end

