-- ==== Sys2Proof/Laws/Ops.lean ====
section
/-! SUPPORT. What each shared operation can do, said once: the checks before an operation, answering, raising a fault, and
reading state that may not have been written since reset. -/

namespace Sys2Proof.Machine

open Sys2Proof.Safety

/-! ## The checks before an operation -/

theorem withParameters_valid {k : State → Result} {s : State} (h : parametersValid s.cfg = true) :
    withParameters k s = k s := if_pos h

theorem unlessHalted_halted {k : State → Result} {s : State} (hv : parametersValid s.cfg = true) (hf : s.fault ≠ 0) :
    unlessHalted k s = .next (s.respond haltedResponse) := by
  rw [unlessHalted, withParameters_valid hv]; exact if_neg hf

theorem unlessHalted_live {k : State → Result} {s : State} (hv : parametersValid s.cfg = true) (hf : s.fault = 0) :
    unlessHalted k s = k s := by
  rw [unlessHalted, withParameters_valid hv]; exact if_pos hf

theorem onOwnPort_ready {p : Port} {k : State → Result} {s : State} (h : Ready p s) : onOwnPort p k s = k s := by
  rw [onOwnPort, unlessHalted_live h.valid h.live]; exact if_pos h.onPort

theorem onOwnPort_halted {p : Port} {k : State → Result} {s : State} (hv : parametersValid s.cfg = true)
    (hf : s.fault ≠ 0) : onOwnPort p k s = .next (s.respond haltedResponse) := by
  rw [onOwnPort, unlessHalted_halted hv hf]

theorem onOwnPort_otherPort {p : Port} {k : State → Result} {s : State} (hv : parametersValid s.cfg = true)
    (hf : s.fault = 0) (hp : s.port ≠ p) : onOwnPort p k s = raise .illegalPort s := by
  rw [onOwnPort, unlessHalted_live hv hf]; exact if_neg hp

/-- Everything `onOwnPort` can do: refuse the parameters, answer halted, raise `IllegalPort`, or go on. -/
theorem onOwnPort_cases (p : Port) (k : State → Result) (s : State) :
    (parametersValid s.cfg = false ∧ onOwnPort p k s = .refused .parametersOutsideR6) ∨
    (parametersValid s.cfg = true ∧ s.fault ≠ 0 ∧ onOwnPort p k s = .next (s.respond haltedResponse)) ∨
    (parametersValid s.cfg = true ∧ s.fault = 0 ∧ s.port ≠ p ∧ onOwnPort p k s = raise .illegalPort s) ∨
    (Ready p s ∧ onOwnPort p k s = k s) := by
  by_cases hv : parametersValid s.cfg = true
  · by_cases hf : s.fault = 0
    · by_cases hp : s.port = p
      · exact .inr (.inr (.inr ⟨⟨hv, hf, hp⟩, onOwnPort_ready ⟨hv, hf, hp⟩⟩))
      · exact .inr (.inr (.inl ⟨hv, hf, hp, onOwnPort_otherPort hv hf hp⟩))
    · exact .inr (.inl ⟨hv, hf, onOwnPort_halted hv hf⟩)
  · refine .inl ⟨by simpa using hv, ?_⟩
    rw [onOwnPort, unlessHalted, withParameters, if_neg hv]

end Sys2Proof.Machine

namespace Sys2Proof.Safety

open Sys2Proof.Machine

/-! ## Answering -/

/-- Whatever was done before it, an answer is seen on the command's own port only. -/
theorem answers_respond {s u : State} (r : Response) (hp : u.port = s.port) (hM : u.respM = s.respM)
    (hP : u.respP = s.respP) : Answers s (u.respond r) r := by
  constructor <;> cases h : s.port <;> simp [responseOn, otherPort, hp, h, hM, hP]

theorem OnlyWrites.refl (l : List Piece) (s : State) : OnlyWrites l s s :=
  ⟨fun _ => ⟨rfl, rfl⟩, fun _ => rfl, fun _ => rfl, fun _ => rfl, fun _ => rfl, fun _ _ => rfl, fun _ _ => rfl,
    fun _ _ => rfl⟩

theorem OnlyWrites.mono {l l' : List Piece} {s t : State} (h : OnlyWrites l s t) (hl : l ⊆ l') : OnlyWrites l' s t :=
  ⟨fun n => h.px (fun m => n (hl m)), fun n => h.crc (fun m => n (hl m)), fun n => h.qwr (fun m => n (hl m)),
    fun n => h.qrd (fun m => n (hl m)), fun n => h.fault (fun m => n (hl m)), fun n => h.pix (fun m => n (hl m)),
    fun n => h.pulse (fun m => n (hl m)), fun n => h.qmem (fun m => n (hl m))⟩

theorem OnlyWrites.respond {l : List Piece} {s u : State} (h : OnlyWrites l s u) (r : Response) :
    OnlyWrites l s (u.respond r) := ⟨h.px, h.crc, h.qwr, h.qrd, h.fault, h.pix, h.pulse, h.qmem⟩

/-- The end of an operation that was performed, as claims say it. -/
theorem performed_performs {l : List Piece} {flag : Bool} {data : Word} {s u : State} (hw : OnlyWrites l s u)
    (ho : KeepsOutside s u) (hM : u.respM = s.respM) (hP : u.respP = s.respP) :
    ∃ t, performed flag data u = .next t ∧ Performs l flag data s t ∧ t = u.respond (performedResponse flag data) :=
  ⟨_, rfl, ⟨answers_respond _ ho.port hM hP, hw.respond _, ⟨ho.cfg, ho.port, ho.inbox⟩⟩, rfl⟩

/-- Raising a fault, as claims say it (60_exceptions.md R200). -/
theorem raise_raises (c : Cause) (s : State) : ∃ t, raise c s = .next t ∧ Raises c s t :=
  ⟨_, rfl, answers_respond _ rfl rfl rfl,
    ⟨fun _ => ⟨rfl, rfl⟩, fun _ => rfl, fun _ => rfl, fun _ => rfl, fun h => absurd (by simp) h, fun _ _ => rfl,
      fun _ _ => rfl, fun _ _ => rfl⟩, rfl, ⟨rfl, rfl, rfl⟩⟩

/-- The halted answer, as claims say it (60_exceptions.md R204). -/
theorem respondHalted_findsHalted (s : State) : FindsHalted s (s.respond haltedResponse) :=
  ⟨answers_respond _ rfl rfl rfl, (OnlyWrites.refl _ s).respond _, ⟨rfl, rfl, rfl⟩⟩

end Sys2Proof.Safety

namespace Sys2Proof.Machine

/-! ## Reading what may not be written -/

@[simp] theorem storedOrDraw_some {width : Nat} (v : BitVec width) (free : Nat → BitVec width) (used : Nat) :
    storedOrDraw (some v) free used = (v, used) := rfl

@[simp] theorem storedOrDraw_none {width : Nat} (free : Nat → BitVec width) (used : Nat) :
    storedOrDraw none free used = (free used, used + 1) := rfl

theorem storedOrDraw_of_stored {width : Nat} {stored : Option (BitVec width)} {free : Nat → BitVec width} {used : Nat}
    {v : BitVec width} (h : stored = some v) : (storedOrDraw stored free used).1 = v := by subst h; rfl

theorem storedPx_written {s : State} (h : s.pxWritten = true) : storedPx s = some s.px := if_pos h

@[simp] theorem readPx_snd (s : State) :
    (readPx s).2 = s.setDraws (storedOrDraw (storedPx s) Config.unwrittenPx s.draws).2 := rfl

@[simp] theorem readPix_snd (i : Nat) (s : State) :
    (readPix i s).2 = s.setDraws (storedOrDraw (s.pix.read i) Config.unwrittenPix s.draws).2 := rfl

@[simp] theorem readPixRun_snd (i n : Nat) (s : State) :
    (readPixRun i n s).2 = s.setDraws (storedOrDrawRun s.pix Config.unwrittenPix i n s.draws).2 := rfl

@[simp] theorem readPulse_snd (i : Nat) (s : State) :
    (readPulse i s).2 = s.setDraws (storedOrDraw (s.pulse.read i) Config.unwrittenPulse s.draws).2 := rfl

@[simp] theorem readQmem_snd (i : Nat) (s : State) :
    (readQmem i s).2 = s.setDraws (storedOrDraw (s.qmem.read i) Config.unwrittenQmem s.draws).2 := rfl

@[simp] theorem storedOrDrawRun_length {width : Nat} (m : Memory width) (free : Nat → BitVec width) (i n used : Nat) :
    (storedOrDrawRun m free i n used).1.length = n := by
  induction n generalizing i used with
  | zero => rfl
  | succ n ih => simp [storedOrDrawRun, ih]

/-- Each element of a run is the stored value where there is one. -/
theorem storedOrDrawRun_getElem {width : Nat} (m : Memory width) (free : Nat → BitVec width) (i n used j : Nat)
    (hj : j < n) : ∃ v, (storedOrDrawRun m free i n used).1[j]? = some v ∧ ∀ u, m.read (i + j) = some u → v = u := by
  induction n generalizing i used j with
  | zero => omega
  | succ n ih =>
    cases j with
    | zero => exact ⟨_, rfl, fun u hu => storedOrDraw_of_stored hu⟩
    | succ j =>
      obtain ⟨v, hv, hu⟩ := ih (i + 1) (storedOrDraw (m.read i) free used).2 j (by omega)
      exact ⟨v, by simpa [storedOrDrawRun] using hv, fun u h => hu u (by rw [← h]; congr 1; omega)⟩

end Sys2Proof.Machine
end

