-- ==== Sys2Proof/Laws/Exec.lean ====
section
/-! SUPPORT. One equation per instruction: what it does when the block is live and the command stands on its own port (what it
does otherwise is `onOwnPort_cases`, once for all). -/

namespace Sys2Proof.Machine

open Sys2Proof.Safety

/-- Every instruction is its operation behind the shared checks of the port that owns it. -/
theorem exec_eq_onOwnPort (i : Instr) : ∃ k : State → Result, ∀ s, exec i s = onOwnPort i.owner k s := by
  cases i <;> exact ⟨_, fun _ => rfl⟩

variable {s : State}

theorem exec_hsv2rgb (h : Ready .M s) (hue sat val : Nat) :
    exec (.hsv2rgb hue sat val) s = loadPx (hsvToRgb hue sat val) s := by
  rw [exec, execHsv2rgb, onOwnPort_ready h]

theorem exec_pxset (h : Ready .M s) (r g b : Byte) : exec (.pxset r g b) s = loadPx (pixelOf r g b) s := by
  rw [exec, execPxset, onOwnPort_ready h]

theorem exec_pixwr (h : Ready .M s) (idx : Nat) :
    exec (.pixwr idx) s = if s.cfg.N ≤ idx then raise .pixRange s else storePx idx s := by
  rw [exec, execPixwr, onOwnPort_ready h]

theorem exec_pixrd (h : Ready .M s) (idx : Nat) :
    exec (.pixrd idx) s =
      if s.cfg.N ≤ idx then raise .pixRange s else loadPx (readPix idx s).1 (readPix idx s).2 := by
  rw [exec, execPixrd, onOwnPort_ready h]

theorem exec_fillall (h : Ready .M s) : exec .fillall s = fill s.cfg.N s := by
  rw [exec, execFillall, onOwnPort_ready h]

theorem exec_filln (h : Ready .M s) (k : Nat) :
    exec (.filln k) s = if s.cfg.N < k then raise .fillRange s else fill k s := by
  rw [exec, execFilln, onOwnPort_ready h]

theorem exec_pulrd (h : Ready .M s) (idx : Nat) :
    exec (.pulrd idx) s =
      if 24 * s.cfg.N < idx then raise .pulseRange s
      else performed plainFlag (readPulse idx s).1 (readPulse idx s).2 := by
  rw [exec, execPulrd, onOwnPort_ready h]

theorem exec_crcinit (h : Ready .M s) : exec .crcinit s = answerCrc (s.setCrc crcInitial) := by
  rw [exec, execCrcinit, onOwnPort_ready h]

theorem exec_crcupd (h : Ready .M s) (byte : Byte) :
    exec (.crcupd byte) s = answerCrc (s.setCrc (crcStep s.crc byte)) := by
  rw [exec, execCrcupd, onOwnPort_ready h]

theorem exec_crcrd (h : Ready .M s) : exec .crcrd s = answerCrc s := by
  rw [exec, execCrcrd, onOwnPort_ready h]

theorem exec_qdeq (h : Ready .M s) :
    exec .qdeq s =
      if queueEmpty s then performed (returnedFlag s) 0 s
      else performed (returnedFlag s) (zext32 (popByte s).1) (popByte s).2 := by
  rw [exec, execQdeq, onOwnPort_ready h]

theorem exec_qlen (h : Ready .M s) : exec .qlen s = performed plainFlag (BitVec.ofNat 32 (occupancy s)) s := by
  rw [exec, execQlen, onOwnPort_ready h]

theorem exec_qenq (h : Ready .P s) (byte : Byte) :
    exec (.qenq byte) s = performed (acceptedFlag s) 0 (if queueFull s then s else pushByte byte s) := by
  rw [exec, execQenq, onOwnPort_ready h]

end Sys2Proof.Machine
end

