-- ==== Sys2Proof/Laws/Outcomes.lean ====
section
/-! SUPPORT. Everything an instruction and a step can do when they answer a next state, said once. -/

namespace Sys2Proof.Machine

open Sys2Proof.Safety

/-- From `s` the instruction `i` answers the state given: the outcomes of the checks, then those of the operations, the
operations of one form together. -/
inductive ExecOutcome (i : Instr) (s : State) : State → Prop where
  | halted (hv : parametersValid s.cfg = true) (hf : s.fault ≠ 0) : ExecOutcome i s (s.respond haltedResponse)
  | otherPort (hv : parametersValid s.cfg = true) (hf : s.fault = 0) (hp : s.port ≠ i.owner) :
      ExecOutcome i s ((s.setFault 2).respond (faultResponse .illegalPort))
  | pixRange (h : Ready i.owner s) (idx : Nat) (hi : i = .pixwr idx ∨ i = .pixrd idx) (hr : s.cfg.N ≤ idx) :
      ExecOutcome i s ((s.setFault 3).respond (faultResponse .pixRange))
  | fillRange (h : Ready i.owner s) (k : Nat) (hi : i = .filln k) (hr : s.cfg.N < k) :
      ExecOutcome i s ((s.setFault 4).respond (faultResponse .fillRange))
  | pulseRange (h : Ready i.owner s) (idx : Nat) (hi : i = .pulrd idx) (hr : 24 * s.cfg.N < idx) :
      ExecOutcome i s ((s.setFault 5).respond (faultResponse .pulseRange))
  | loaded (h : Ready i.owner s) (v : Pixel)
      (hi : (∃ hue sat val, i = .hsv2rgb hue sat val ∧ v = hsvToRgb hue sat val) ∨
        ∃ r g b, i = .pxset r g b ∧ v = pixelOf r g b) :
      ExecOutcome i s ((s.setPx v).respond (performedResponse false (zext32 v)))
  | pixwr (h : Ready i.owner s) (idx : Nat) (hi : i = .pixwr idx) (hr : idx < s.cfg.N) :
      ExecOutcome i s (((readPx s).2.writePix idx [(readPx s).1]).respond (performedResponse false 0))
  | pixrd (h : Ready i.owner s) (idx : Nat) (hi : i = .pixrd idx) (hr : idx < s.cfg.N) :
      ExecOutcome i s (((readPix idx s).2.setPx (readPix idx s).1).respond
        (performedResponse false (zext32 (readPix idx s).1)))
  | filled (h : Ready i.owner s) (k : Nat) (hi : i = .filln k ∨ (i = .fillall ∧ k = s.cfg.N)) (hr : k ≤ s.cfg.N) :
      ExecOutcome i s (((readPixRun 0 k s).2.writePulse 0 (fillImage s.cfg (readPixRun 0 k s).1)).respond
        (performedResponse false (BitVec.ofNat 32 (24 * k))))
  | pulrd (h : Ready i.owner s) (idx : Nat) (hi : i = .pulrd idx) (hr : idx ≤ 24 * s.cfg.N) :
      ExecOutcome i s ((readPulse idx s).2.respond (performedResponse false (readPulse idx s).1))
  | crc (h : Ready i.owner s) (v : BitVec 16)
      (hi : (i = .crcinit ∧ v = crcInitial) ∨ (∃ b, i = .crcupd b ∧ v = crcStep s.crc b) ∨ (i = .crcrd ∧ v = s.crc)) :
      ExecOutcome i s ((s.setCrc v).respond (performedResponse false (zext32 v)))
  | deqEmpty (h : Ready i.owner s) (hi : i = .qdeq) (he : s.qwr = s.qrd) :
      ExecOutcome i s (s.respond (performedResponse false 0))
  | deq (h : Ready i.owner s) (hi : i = .qdeq) (he : s.qwr ≠ s.qrd) :
      ExecOutcome i s ((popByte s).2.respond (performedResponse true (zext32 (popByte s).1)))
  | qlen (h : Ready i.owner s) (hi : i = .qlen) :
      ExecOutcome i s (s.respond (performedResponse false (BitVec.ofNat 32 (occupancy s))))
  | enqFull (h : Ready i.owner s) (b : Byte) (hi : i = .qenq b) (he : occupancy s = s.cfg.QCAP) :
      ExecOutcome i s (s.respond (performedResponse false 0))
  | enq (h : Ready i.owner s) (b : Byte) (hi : i = .qenq b) (he : occupancy s ≠ s.cfg.QCAP) :
      ExecOutcome i s ((pushByte b s).respond (performedResponse true 0))

theorem exec_outcome {i : Instr} {s t : State} (h : exec i s = .next t) : ExecOutcome i s t := by
  obtain ⟨k, hk⟩ := exec_eq_onOwnPort i
  rcases onOwnPort_cases i.owner k s with ⟨_, e⟩ | ⟨hv, hf, e⟩ | ⟨hv, hf, hp, e⟩ | ⟨hr, _⟩
  · rw [hk, e] at h; cases h
  · rw [hk, e] at h; cases h; exact .halted hv hf
  · rw [hk, e] at h; cases h; exact .otherPort hv hf hp
  · cases i with
    | hsv2rgb hue sat val => rw [exec_hsv2rgb hr] at h; cases h; exact .loaded hr _ (.inl ⟨_, _, _, rfl, rfl⟩)
    | pxset r g b => rw [exec_pxset hr] at h; cases h; exact .loaded hr _ (.inr ⟨_, _, _, rfl, rfl⟩)
    | pixwr idx =>
      rw [exec_pixwr hr] at h
      split at h <;> cases h
      · exact .pixRange hr idx (.inl rfl) ‹_›
      · exact .pixwr hr idx rfl (by omega)
    | pixrd idx =>
      rw [exec_pixrd hr] at h
      split at h <;> cases h
      · exact .pixRange hr idx (.inr rfl) ‹_›
      · exact .pixrd hr idx rfl (by omega)
    | fillall => rw [exec_fillall hr] at h; cases h; exact .filled hr _ (.inr ⟨rfl, rfl⟩) (Nat.le_refl _)
    | filln k =>
      rw [exec_filln hr] at h
      split at h <;> cases h
      · exact .fillRange hr k rfl ‹_›
      · exact .filled hr _ (.inl rfl) (by omega)
    | pulrd idx =>
      rw [exec_pulrd hr] at h
      split at h <;> cases h
      · exact .pulseRange hr idx rfl ‹_›
      · exact .pulrd hr idx rfl (by omega)
    | crcinit => rw [exec_crcinit hr] at h; cases h; exact .crc hr _ (.inl ⟨rfl, rfl⟩)
    | crcupd b => rw [exec_crcupd hr] at h; cases h; exact .crc hr _ (.inr (.inl ⟨b, rfl, rfl⟩))
    | crcrd => rw [exec_crcrd hr] at h; cases h; exact .crc hr _ (.inr (.inr ⟨rfl, rfl⟩))
    | qdeq =>
      rw [exec_qdeq hr] at h
      split at h <;> cases h
      · rename_i he
        have hf : returnedFlag s = false := by simp [returnedFlag, he]
        rw [hf]; exact .deqEmpty hr rfl (by simpa [queueEmpty] using he)
      · rename_i he
        have hf : returnedFlag s = true := by simp [returnedFlag, he]
        rw [hf]; exact .deq hr rfl (by simpa [queueEmpty] using he)
    | qlen => rw [exec_qlen hr] at h; cases h; exact .qlen hr rfl
    | qenq b =>
      rw [exec_qenq hr] at h; cases h
      by_cases hf : queueFull s = true
      · have ha : acceptedFlag s = false := by simp [acceptedFlag, hf]
        rw [ha, if_pos hf]; exact .enqFull hr b rfl (by simpa [queueFull] using hf)
      · have ha : acceptedFlag s = true := by simp [acceptedFlag, hf]
        rw [ha, if_neg hf]; exact .enq hr b rfl (by simpa [queueFull] using hf)

/-- A word that is no operation: halted, or `IllegalOp`. -/
theorem rejectWord_cases (why : DecodeReject) {s : State} (hv : parametersValid s.cfg = true) :
    (s.fault ≠ 0 ∧ rejectWord why s = .next (s.respond haltedResponse)) ∨
    (s.fault = 0 ∧ rejectWord why s = raise .illegalOp s) := by
  by_cases hf : s.fault = 0
  · exact .inr ⟨hf, unlessHalted_live hv hf⟩
  · exact .inl ⟨hf, unlessHalted_halted hv hf⟩

/-- Taking an input changes nothing but what comes next and the counter of free values. -/
theorem takeInput_state (s : State) : ∃ l n, (takeInput s).2 = (s.setInbox l).setDraws n := by
  unfold takeInput
  split
  · exact ⟨s.inbox, s.draws, rfl⟩
  · rename_i p w rest _; exact ⟨rest, s.draws, rfl⟩
  · split <;> exact ⟨_, _, rfl⟩
  · rename_i rest _; exact ⟨rest, s.draws, rfl⟩

theorem step_valid {s : State} (hv : parametersValid s.cfg = true) : step s = performTaken (takeInput s) :=
  withParameters_valid hv

theorem valid_of_step {s t : State} (h : step s = .next t) : parametersValid s.cfg = true := by
  by_contra hv
  rw [step, withParameters, if_neg hv] at h
  cases h

/-- From `s` a step answers `t`: nothing taken, reset, a command performed, or a word rejected. -/
inductive StepOutcome (s t : State) : Prop where
  | nothing (h : (takeInput s).1 = .nothing) (e : t = s)
  | reset (h : (takeInput s).1 = .reset) (l : List Input) (n : Nat) (e : t = resetBlock ((s.setInbox l).setDraws n))
  | performed (p : Port) (w : Word) (l : List Input) (n : Nat) (h : (takeInput s).1 = .command p w) (i : Instr)
      (hd : decode w = .ok i) (e : ExecOutcome i (((s.setInbox l).setDraws n).setPort p) t)
  | halted (p : Port) (w : Word) (l : List Input) (n : Nat) (h : (takeInput s).1 = .command p w) (why : DecodeReject)
      (hd : decode w = .error why) (hf : s.fault ≠ 0)
      (e : t = (((s.setInbox l).setDraws n).setPort p).respond haltedResponse)
  | illegal (p : Port) (w : Word) (l : List Input) (n : Nat) (h : (takeInput s).1 = .command p w) (why : DecodeReject)
      (hd : decode w = .error why) (hf : s.fault = 0)
      (e : t = ((((s.setInbox l).setDraws n).setPort p).setFault 1).respond (faultResponse .illegalOp))

theorem step_outcome {s t : State} (h : step s = .next t) : StepOutcome s t := by
  have hv := valid_of_step h
  rw [step_valid hv] at h
  obtain ⟨l, n, hk⟩ := takeInput_state s
  unfold performTaken at h
  split at h
  · rename_i h1
    cases h
    refine .nothing h1 ?_
    unfold takeInput at h1 ⊢
    split at h1
    · rfl
    · cases h1
    · split at h1 <;> cases h1
    · cases h1
  · rename_i h1
    cases h
    exact .reset h1 l n (by rw [hk])
  · rename_i p w h1
    rw [hk] at h
    unfold present at h
    split at h
    · rename_i i hd
      exact .performed p w l n h1 i hd (exec_outcome h)
    · rename_i why hd
      rcases rejectWord_cases why (s := ((s.setInbox l).setDraws n).setPort p) hv with ⟨hf, e⟩ | ⟨hf, e⟩ <;>
        rw [e] at h <;> cases h
      · exact .halted p w l n h1 why hd hf rfl
      · exact .illegal p w l n h1 why hd hf rfl

end Sys2Proof.Machine
end

