-- ==== Sys2Proof/Laws/Queue.lean ====
section
/-! SUPPORT. The arithmetic of the queue's pointers, and what storing and removing a byte do to them, on states that meet the
invariant. -/

namespace Sys2Proof.Safety

open Sys2Proof.Machine

theorem qcap_of_valid {c : Config} (h : parametersValid c = true) : 1 ≤ c.QCAP ∧ c.QCAP ≤ 2 ^ 30 := by
  simp only [parametersValid, decide_eq_true_eq] at h
  omega

theorem mod_lt_three {a n : Nat} (h : a < 3 * n) :
    (a < n ∧ a % n = a) ∨ (n ≤ a ∧ a < 2 * n ∧ a % n = a - n) ∨ (2 * n ≤ a ∧ a % n = a - 2 * n) := by
  by_cases h1 : a < n
  · exact .inl ⟨h1, Nat.mod_eq_of_lt h1⟩
  · by_cases h2 : a < 2 * n
    · refine .inr (.inl ⟨by omega, h2, ?_⟩)
      rw [Nat.mod_eq_sub_mod (by omega), Nat.mod_eq_of_lt (by omega)]
    · refine .inr (.inr ⟨by omega, ?_⟩)
      rw [Nat.mod_eq_sub_mod (by omega), Nat.mod_eq_sub_mod (by omega), Nat.mod_eq_of_lt (by omega)]
      omega

theorem nextPointer_cases {c : Config} {p : Nat} (h : p < 2 * c.QCAP) :
    (p + 1 < 2 * c.QCAP ∧ nextPointer c p = p + 1) ∨ (p + 1 = 2 * c.QCAP ∧ nextPointer c p = 0) := by
  unfold nextPointer
  by_cases h' : p + 1 < 2 * c.QCAP
  · exact .inl ⟨h', Nat.mod_eq_of_lt h'⟩
  · have e : p + 1 = 2 * c.QCAP := by omega
    exact .inr ⟨e, by rw [e, Nat.mod_self]⟩

theorem occupancy_cases {s : State} (h1 : s.qwr < 2 * s.cfg.QCAP) (h2 : s.qrd < 2 * s.cfg.QCAP) :
    (s.qrd ≤ s.qwr ∧ occupancy s = s.qwr - s.qrd) ∨ (s.qwr < s.qrd ∧ occupancy s = s.qwr + 2 * s.cfg.QCAP - s.qrd) := by
  unfold occupancy
  by_cases h : s.qrd ≤ s.qwr
  · refine .inl ⟨h, ?_⟩
    rw [Int.emod_eq_of_lt (by omega) (by omega)]; omega
  · refine .inr ⟨by omega, ?_⟩
    rw [← Int.add_emod_right, Int.emod_eq_of_lt (by omega) (by omega)]; omega

theorem occupancy_congr {s t : State} (h1 : t.qwr = s.qwr) (h2 : t.qrd = s.qrd) (h3 : t.cfg = s.cfg) :
    occupancy t = occupancy s := by
  unfold occupancy; rw [h1, h2, h3]

theorem content_congr {s t : State} (h1 : t.qwr = s.qwr) (h2 : t.qrd = s.qrd) (h3 : t.cfg = s.cfg)
    (h4 : t.qmem = s.qmem) : content t = content s := by
  unfold content; rw [occupancy_congr h1 h2 h3, h2, h3, h4]

/-- Storing a byte: one more in the content, the others where they were. -/
theorem pushByte_spec {s : State} (hi : Inv s) (hn : occupancy s ≠ s.cfg.QCAP) (b : Byte) :
    occupancy (pushByte b s) = occupancy s + 1 ∧
    (∀ j, j < occupancy s →
      (pushByte b s).qmem.read ((s.qrd + j) % s.cfg.QCAP) = s.qmem.read ((s.qrd + j) % s.cfg.QCAP)) ∧
    (pushByte b s).qmem.read ((s.qrd + occupancy s) % s.cfg.QCAP) = some b ∧
    (pushByte b s).qwr < 2 * s.cfg.QCAP := by
  have hq := qcap_of_valid hi.valid
  have h1 := hi.qwr_lt; have h2 := hi.qrd_lt; have h3 := hi.occupancy_le
  have ho := occupancy_cases h1 h2
  have hw := nextPointer_cases h1
  have e : (pushByte b s).qwr = nextPointer s.cfg s.qwr := rfl
  rw [← e] at hw
  have hlt : (pushByte b s).qwr < 2 * s.cfg.QCAP := by omega
  have ho' := occupancy_cases (s := pushByte b s) hlt h2
  have hread : ∀ a, (pushByte b s).qmem.read a = if a = s.qwr % s.cfg.QCAP then some b else s.qmem.read a :=
    fun a => Memory.read_write_single _ _ _ _
  have hcfg : (pushByte b s).cfg = s.cfg := rfl
  have hrd : (pushByte b s).qrd = s.qrd := rfl
  rw [hcfg, hrd] at ho'
  have a2 := mod_lt_three (a := s.qwr) (n := s.cfg.QCAP) (by omega)
  refine ⟨by omega, fun j hj => ?_, ?_, hlt⟩
  · have a1 := mod_lt_three (a := s.qrd + j) (n := s.cfg.QCAP) (by omega)
    rw [hread, if_neg (by omega)]
  · have a1 := mod_lt_three (a := s.qrd + occupancy s) (n := s.cfg.QCAP) (by omega)
    rw [hread, if_pos (by omega)]

/-- Removing a byte: the oldest leaves, the others keep their places. -/
theorem popByte_spec {s : State} (hi : Inv s) (hn : s.qwr ≠ s.qrd) :
    s.qmem.read (s.qrd % s.cfg.QCAP) = some (popByte s).1 ∧
    occupancy s = occupancy (popByte s).2 + 1 ∧
    (∀ j, ((popByte s).2.qrd + j) % s.cfg.QCAP = (s.qrd + (j + 1)) % s.cfg.QCAP) ∧
    (popByte s).2.qrd < 2 * s.cfg.QCAP := by
  have hq := qcap_of_valid hi.valid
  have h1 := hi.qwr_lt; have h2 := hi.qrd_lt
  have ho := occupancy_cases h1 h2
  obtain ⟨v, hv⟩ := Option.isSome_iff_exists.mp (hi.content_stored 0 (by omega))
  rw [Nat.add_zero] at hv
  have hr := nextPointer_cases h2
  have e : (popByte s).2.qrd = nextPointer s.cfg s.qrd := rfl
  rw [← e] at hr
  have hlt : (popByte s).2.qrd < 2 * s.cfg.QCAP := by omega
  have ho' := occupancy_cases (s := (popByte s).2) h1 hlt
  have hcfg : (popByte s).2.cfg = s.cfg := rfl
  have hwq : (popByte s).2.qwr = s.qwr := rfl
  rw [hcfg, hwq] at ho'
  refine ⟨hv.trans (congrArg some (storedOrDraw_of_stored hv).symm), by omega, fun j => ?_, hlt⟩
  rcases hr with ⟨_, e⟩ | ⟨e', e⟩ <;> rw [e]
  · congr 1; omega
  · have e2 : s.qrd + (j + 1) = j + s.cfg.QCAP + s.cfg.QCAP := by omega
    rw [e2, Nat.add_mod_right, Nat.add_mod_right]; congr 1; omega

end Sys2Proof.Safety
end

