-- ==== Sys2Proof/Laws/Values.lean ====
section
/-! SUPPORT. Pixels, zero extension and descriptors in plain arithmetic, the image a fill writes, and the byte step's
iterations. -/

namespace Sys2Proof.Machine

theorem pixelOf_toNat (r g b : Byte) : (pixelOf r g b).toNat = r.toNat * 2 ^ 16 + g.toNat * 2 ^ 8 + b.toNat := by
  have := r.isLt; have := g.isLt; have := b.isLt
  unfold pixelOf
  rw [BitVec.toNat_append, BitVec.toNat_append, ← Nat.shiftLeft_add_eq_or_of_lt b.isLt,
    ← Nat.shiftLeft_add_eq_or_of_lt g.isLt, Nat.shiftLeft_eq, Nat.shiftLeft_eq]
  omega

theorem zext32_eq {width : Nat} (v : BitVec width) : zext32 v = BitVec.ofNat 32 v.toNat := by
  apply BitVec.eq_of_toNat_eq; simp [zext32]

/-! ## The image a fill writes -/

theorem descOf_eq {hi lo : Nat} (hlo : lo ≤ 65535) : descOf hi lo = BitVec.ofNat 32 (hi * 2 ^ 16 + lo) := by
  apply BitVec.eq_of_toNat_eq
  rw [descOf, BitVec.toNat_append, ← Nat.shiftLeft_add_eq_or_of_lt (BitVec.isLt _), Nat.shiftLeft_eq]
  simp only [BitVec.toNat_ofNat]
  omega

@[simp] theorem expandPixel_length (c : Config) (px : Pixel) : (expandPixel c px).length = 24 := by simp [expandPixel]

theorem expandPixel_getElem (c : Config) (px : Pixel) {j : Nat} (h : j < 24) :
    (expandPixel c px)[j]? = some (if wireBit px j then descOne c else descZero c) := by
  simp [expandPixel, h]

theorem flatMap_expandPixel_length (c : Config) (pxs : List Pixel) :
    (pxs.flatMap (expandPixel c)).length = 24 * pxs.length := by
  induction pxs with
  | nil => rfl
  | cons p ps ih => rw [List.flatMap_cons, List.length_append, ih, expandPixel_length, List.length_cons]; omega

theorem fillImage_length (c : Config) (pxs : List Pixel) : (fillImage c pxs).length = 24 * pxs.length + 1 := by
  rw [fillImage, List.length_append, flatMap_expandPixel_length]; rfl

theorem flatMap_expandPixel_getElem (c : Config) {pxs : List Pixel} {i j : Nat} (hj : j < 24) {px : Pixel}
    (h : pxs[i]? = some px) : (pxs.flatMap (expandPixel c))[24 * i + j]? = (expandPixel c px)[j]? := by
  induction pxs generalizing i with
  | nil => simp at h
  | cons p ps ih =>
    cases i with
    | zero =>
      simp only [List.getElem?_cons_zero, Option.some.injEq] at h
      subst h
      rw [List.flatMap_cons, List.getElem?_append_left (by rw [expandPixel_length]; omega), Nat.mul_zero, Nat.zero_add]
    | succ i =>
      rw [List.flatMap_cons, List.getElem?_append_right (by rw [expandPixel_length]; omega), expandPixel_length]
      have e : 24 * (i + 1) + j - 24 = 24 * i + j := by omega
      rw [e]
      exact ih (by simpa using h)

/-- Descriptor `j` of pixel `i` of the image. -/
theorem fillImage_data (c : Config) {pxs : List Pixel} {i j : Nat} (hj : j < 24) {px : Pixel} (h : pxs[i]? = some px) :
    (fillImage c pxs)[24 * i + j]? = some (if wireBit px j then descOne c else descZero c) := by
  have hi : i < pxs.length := by
    rcases Nat.lt_or_ge i pxs.length with hi | hi
    · exact hi
    · rw [List.getElem?_eq_none hi] at h; cases h
  rw [fillImage, List.getElem?_append_left (by rw [flatMap_expandPixel_length]; omega),
    flatMap_expandPixel_getElem c hj h, expandPixel_getElem c px hj]

/-- The last element of the image is the terminator. -/
theorem fillImage_last (c : Config) (pxs : List Pixel) : (fillImage c pxs)[24 * pxs.length]? = some terminator := by
  rw [fillImage, List.getElem?_append_right (by rw [flatMap_expandPixel_length]), flatMap_expandPixel_length, Nat.sub_self]
  rfl

/-! ## The byte step -/

theorem crcShift_bits (t : BitVec 16) :
    (crcShift t).getLsbD 0 = t.msb ∧
    ∀ k, k < 15 → t.getLsbD k = ((crcShift t).getLsbD (k + 1) ^^ (t.msb && crcPolynomial.getLsbD (k + 1))) := by
  unfold crcShift
  refine ⟨by cases h : t.msb <;> simp [crcPolynomial], fun k hk => ?_⟩
  cases h : t.msb
  · simp [BitVec.getLsbD_shiftLeft]; omega
  · simp [BitVec.getLsbD_shiftLeft]
    intro h'; omega

end Sys2Proof.Machine
end

