-- ==== Sys2Proof/Tests/Slice0.lean ====
section
/-! SUPPORT. The model's own tests, their expected results from the spec's vectors (95_test_vectors.md, named V-... or P...),
the smoke test of `wellFormed`, and a witness for the hypotheses of every statement that has some. -/

namespace Sys2Proof.Tests

open Sys2Proof.Machine Sys2Proof.Safety

/-! ## Small states -/

/-- Three pixels and a queue of four bytes, the durations of the default. -/
def tiny : Config := { N := 3, T0H := 32, T0L := 68, T1H := 64, T1L := 48, QCAP := 4 }

/-- The block after reset, with a command at hand on port `p`. -/
def live (p : Port) : State := { State.reset with cfg := tiny, port := p }

/-- The block halted by a `PixRange`. -/
def stopped (p : Port) : State := { live p with fault := 3 }

/-- PX and all three pixels written: red, green, blue (the start of 95_test_vectors.md V-ENC-06). -/
def painted : State :=
  { live .M with px := 0x010203, pxWritten := true, pix := [(0, 0xFF0000), (1, 0x00FF00), (2, 0x0000FF)] }

/-- The queue with content 11 22 33 44, full (V-Q-03d). -/
def fullQueue (p : Port) : State :=
  { live p with qwr := 4, qrd := 0, qmem := [(0, 0x11), (1, 0x22), (2, 0x33), (3, 0x44)] }

/-- The queue with content A0, its write pointer at the last value (V-Q-08a). -/
def wrapping (p : Port) : State :=
  { live p with qwr := 7, qrd := 6, qmem := [(0, 0x66), (1, 0x77), (2, 0xA0), (3, 0x44)] }

/-- A block that an input reaches. -/
def given (s : State) (inputs : List Input) : State := { s with inbox := inputs }

/-- The next state of a result, if it is one. -/
def nextOf : Result → Option State
  | .next t => some t
  | _ => none

/-- A field of the next state. -/
def after {α : Type} (r : Result) (f : State → α) : Option α := (nextOf r).map f

/-- The response `{0, flag, data}` on port M. -/
def ok (flag : Bool) (data : Word) : Option (Option Response) := some (some { fault := 0, flag := flag, data := data })

/-- The response `{code, 0, 0}`. -/
def failed (code : BitVec 4) : Option (Option Response) := some (some { fault := code, flag := false, data := 0 })

/-! ## Decoding: words of the spec's encodings -/

theorem test_decode_hsv2rgb : decode 0x102D80C8 = .ok (.hsv2rgb 45 128 200) := by rfl
theorem test_decode_pxset : decode 0x20123456 = .ok (.pxset 0x12 0x34 0x56) := by rfl
theorem test_decode_pixwr : decode 0x30000117 = .ok (.pixwr 279) := by rfl
theorem test_decode_pixrd : decode 0x40000FFF = .ok (.pixrd 4095) := by rfl
theorem test_decode_fillall : decode 0x50000000 = .ok .fillall := by rfl
theorem test_decode_filln : decode 0x60000119 = .ok (.filln 281) := by rfl
theorem test_decode_pulrd : decode 0x70001A40 = .ok (.pulrd 6720) := by rfl
theorem test_decode_crcinit : decode 0x80000000 = .ok .crcinit := by rfl
theorem test_decode_crcupd : decode 0x90000001 = .ok (.crcupd 0x01) := by rfl
theorem test_decode_crcrd : decode 0xA0000000 = .ok .crcrd := by rfl
theorem test_decode_qdeq : decode 0xB0000000 = .ok .qdeq := by rfl
theorem test_decode_qlen : decode 0xC0000000 = .ok .qlen := by rfl
theorem test_decode_qenq : decode 0xD0000044 = .ok (.qenq 0x44) := by rfl

/-- V-F-02, V-F-10, V-F-11 and the example of 60_exceptions.md R203. -/
theorem test_decode_rejects :
    decode 0xE0000000 = .error .unassignedOperation ∧ decode 0x30001000 = .error .reservedBit ∧
    decode 0x70010000 = .error .reservedBit ∧ decode 0x30FFF118 = .error .reservedBit :=
  ⟨rfl, rfl, rfl, rfl⟩

/-- The word of the worked example of 41_colormath.md R118, from the encoder. -/
theorem test_encode_hsv2rgb : encode (.hsv2rgb 45 128 200) = 0x102D80C8 := by rfl

/-- The ports of 30_encoding.md R90. -/
theorem test_defaultPort : defaultPort 0xD0000044 = .P ∧ defaultPort 0xC0000000 = .M := ⟨rfl, rfl⟩

/-! ## Well-formedness: an ill-formed term for each check -/

theorem smoke_hue : (Instr.hsv2rgb 4096 0 0).wellFormed = false := by decide
theorem smoke_sat : (Instr.hsv2rgb 0 256 0).wellFormed = false := by decide
theorem smoke_val : (Instr.hsv2rgb 0 0 256).wellFormed = false := by decide
theorem smoke_pixwr : (Instr.pixwr 4096).wellFormed = false := by decide
theorem smoke_pixrd : (Instr.pixrd 4096).wellFormed = false := by decide
theorem smoke_filln : (Instr.filln 4096).wellFormed = false := by decide
theorem smoke_pulrd : (Instr.pulrd 65536).wellFormed = false := by decide

/-- One parameter set for each constraint of 00_scope.md R6 that breaks it. -/
theorem smoke_parameters :
    parametersValid { tiny with N := 0 } = false ∧ parametersValid { tiny with N := 2731 } = false ∧
    parametersValid { tiny with T0H := 0 } = false ∧ parametersValid { tiny with T0L := 65536 } = false ∧
    parametersValid { tiny with T1H := 0 } = false ∧ parametersValid { tiny with T1L := 65536 } = false ∧
    parametersValid { tiny with T1H := 32, T1L := 68 } = false ∧ parametersValid { tiny with QCAP := 0 } = false ∧
    parametersValid { tiny with QCAP := 2 ^ 30 + 1 } = false := by decide

/-- The canonical form refuses a repeated, a falling and an outside index. -/
theorem smoke_memory :
    Memory.wf 4 ([(1, 0), (1, 0)] : Memory 8) = false ∧ Memory.wf 4 ([(2, 0), (1, 0)] : Memory 8) = false ∧
    Memory.wf 4 ([(4, 0)] : Memory 8) = false := by decide

/-! ## One step each -/

/-- V-HSV-28. -/
theorem test_hsv2rgb_sector0 : after (exec (.hsv2rgb 45 128 200) (live .M)) (·.respM) = ok false 0x00C8AF64 := by decide

/-- V-HSV-23: hue reduction, an even sector. -/
theorem test_hsv2rgb_reduces_hue : after (exec (.hsv2rgb 4095 255 255) (live .M)) (·.px) = some 0x00FF3F := by decide

/-- V-HSV-20, V-HSV-08, V-HSV-14, V-HSV-17, V-HSV-33: the other sectors and truncation. -/
theorem test_hsv_sectors :
    hsvToRgb 359 255 255 = 0xFF0004 ∧ hsvToRgb 119 255 255 = 0x04FF00 ∧ hsvToRgb 239 255 255 = 0x0004FF ∧
    hsvToRgb 299 255 255 = 0xFA00FF ∧ hsvToRgb 250 200 100 = 0x231664 := by decide

/-- V-PX-04. -/
theorem test_pxset : after (exec (.pxset 0x12 0x34 0x56) (live .M)) (·.px) = some 0x123456 := by decide

/-- The last index of the space; PX is unchanged (42_pulse_encoder.md R131). -/
theorem test_pixwr_last_index :
    after (exec (.pixwr 2) painted) (fun t => (t.pix.read 2, t.px)) = some (some 0x010203, 0x010203) := by decide

/-- V-F-05 with N = 3: the first index outside the space. -/
theorem test_pixwr_faults : after (exec (.pixwr 3) painted) (fun t => (t.respM, t.fault, t.pix)) =
    some (some { fault := 3, flag := false, data := 0 }, 3, painted.pix) := by decide

/-- V-ENC-11. -/
theorem test_pixrd : after (exec (.pixrd 0) painted) (·.respM) = ok false 0x00FF0000 := by decide

/-- V-F-06 with N = 3. -/
theorem test_pixrd_faults : after (exec (.pixrd 4095) painted) (fun t => (t.respM, t.px)) =
    some (some { fault := 3, flag := false, data := 0 }, 0x010203) := by decide

/-- V-ENC-06 with N = 3: green first, so pixel 0 (red) has its ones at 8; pixel 1 (green) at 24; the terminator at 72. -/
theorem test_fillall : after (exec .fillall painted)
      (fun t => [0, 7, 8, 15, 16, 24, 32, 64, 72].map t.pulse.read) =
    some [some 0x00200044, some 0x00200044, some 0x00400030, some 0x00400030, some 0x00200044, some 0x00400030,
      some 0x00200044, some 0x00400030, some 0] := by decide

/-- V-ENC-07: the terminator of a shorter fill, and what is above it stays. -/
theorem test_filln_keeps_above : after (exec (.filln 1) { painted with pulse := [(24, 5), (25, 7)] })
      (fun t => (t.pulse.read 24, t.pulse.read 25, t.respM)) =
    some (some 0, some 7, some { fault := 0, flag := false, data := 24 }) := by decide

/-- V-F-07 with N = 3: nothing is written. -/
theorem test_filln_faults : after (exec (.filln 4) painted) (fun t => (t.respM, t.pulse)) =
    some (some { fault := 4, flag := false, data := 0 }, []) := by decide

/-- The last index of PULSE with N = 3. -/
theorem test_pulrd_last_index :
    after (exec (.pulrd 72) { painted with pulse := [(72, 0x00400030)] }) (·.respM) = ok false 0x00400030 := by decide

/-- V-F-08 with N = 3. -/
theorem test_pulrd_faults : after (exec (.pulrd 73) painted) (·.respM) = failed 5 := by decide

/-- V-CRC-20. -/
theorem test_crcinit : after (exec .crcinit { live .M with crc := 0x1234 }) (·.crc) = some 0xFFFF := by decide

/-- V-STEP-07. -/
theorem test_crcupd : after (exec (.crcupd 0x01) (live .M)) (·.respM) = ok false 0x0000F1D1 := by decide

/-- V-STEP-02, V-STEP-03, V-STEP-05. -/
theorem test_crcStep : crcStep 0 0x01 = 0x1021 ∧ crcStep 0 0x80 = 0x9188 ∧ crcStep 0xFFFF 0xFF = 0xFF00 := by decide

/-- V-CRC-19. -/
theorem test_crcrd : after (exec .crcrd { live .M with crc := 0xF1D1 }) (·.respM) = ok false 0x0000F1D1 := by decide

/-- V-CRC-05, V-CRC-12. -/
theorem test_crc16 :
    crc16 [0x01, 0x00, 0x00] = 0xFBAC ∧ crc16 [0x31, 0x32, 0x33, 0x34, 0x35, 0x36, 0x37, 0x38, 0x39] = 0x29B1 := by
  decide +kernel

/-- The frame of V-CRC-07, and 90_conflicts.md C1: the header is not fed. -/
theorem test_frame : wireFrame 0x01 [0x01] = [0xAA, 0x01, 0x00, 0x01, 0x01, 0xD1, 0x64] ∧
    frameValid [0xAA, 0x01, 0x00, 0x00, 0xFB, 0xAC] = true ∧ frameValid [0xAA, 0x01, 0x00, 0x00, 0x31, 0x2D] = false := by
  decide +kernel

/-- V-Q-05a. -/
theorem test_qdeq : after (exec .qdeq (fullQueue .M)) (fun t => (t.respM, t.qrd)) =
    some (some { fault := 0, flag := true, data := 0x11 }, 1) := by decide

/-- V-Q-07b: pointers equal but not zero. -/
theorem test_qdeq_empty : after (exec .qdeq { live .M with qwr := 6, qrd := 6 }) (·.respM) = ok false 0 := by decide

/-- V-Q-08b: the occupancy across the wrap of the write pointer. -/
theorem test_qlen_wrapped : after (exec .qlen { live .M with qwr := 0, qrd := 6 }) (·.respM) = ok false 2 := by decide

/-- V-Q-08b: the write pointer wraps, slot 3. -/
theorem test_qenq_wraps : after (exec (.qenq 0xA1) (wrapping .P)) (fun t => (t.qwr, t.qmem.read 3, t.respP)) =
    some (0, some 0xA1, some { fault := 0, flag := true, data := 0 }) := by decide

/-- V-Q-03e: the newest byte is dropped and nothing is a fault. -/
theorem test_qenq_full : after (exec (.qenq 0x55) (fullQueue .P)) (fun t => (t.qwr, t.qmem, t.fault, t.respP)) =
    some (4, (fullQueue .P).qmem, 0, some { fault := 0, flag := false, data := 0 }) := by decide

/-- V-F-03 and the second example of 60_exceptions.md R203: the priority of faults on port P. -/
theorem test_priority : after (present .P 0x00000000 (live .M)) (·.respP) = failed 1 ∧
    after (present .P 0x30000118 (live .M)) (·.respP) = failed 2 := by decide

/-- 60_exceptions.md R204: a halted block answers an illegal word with code 6 and keeps the first cause. -/
theorem test_halted : after (step (given (stopped .M) [.command .M 0x00000000])) (fun t => (t.respM, t.fault)) =
    some (some { fault := 6, flag := false, data := 0 }, 3) := by decide

/-- 70_reset_and_hazards.md R231: reset with a command presented while it is active. -/
theorem test_reset : after (step (given (stopped .M) [.reset (some 0xC0000000) none])) (fun t => (t.fault, t.crc, t.respM)) =
    some (0, 0xFFFF, none) := by decide

/-- 30_encoding.md R91, CRCFRAME over the frame of P3. -/
theorem test_crcFrame :
    crcFrame 0x01 1 [0x01] = [.crcinit, .crcupd 0x01, .crcupd 0x00, .crcupd 0x01, .crcupd 0x01, .crcrd] := by decide

/-- 30_encoding.md R91, HSVPIX and CLRPIX. -/
theorem test_pseudo : hsvPixel 1 45 128 200 = [.hsv2rgb 45 128 200, .pixwr 1] ∧
    clearPixels tiny = [.pxset 0 0 0, .pixwr 0, .pixwr 1, .pixwr 2] := by decide

/-- The line time of V-ENC-02 (42_pulse_encoder.md R138). -/
theorem test_lineTicks : lineTicks (fillImage Config.default [0xFF0000]) = 2496 := by decide

/-- 30_encoding.md R90. -/
theorem test_assembly : (Instr.hsv2rgb 45 128 200).assembly = "HSV2RGB 45, 128, 200" ∧ Instr.qdeq.assembly = "QDEQ" := by
  decide

/-! ## Witnesses: for every statement with hypotheses, a state and operands that meet all of them -/

theorem readyM : Ready .M (live .M) := ⟨by decide, rfl, rfl⟩
theorem readyP : Ready .P (live .P) := ⟨by decide, rfl, rfl⟩
theorem readyPainted : Ready .M painted := ⟨by decide, rfl, rfl⟩
theorem readyFullM : Ready .M (fullQueue .M) := ⟨by decide, rfl, rfl⟩
theorem readyFullP : Ready .P (fullQueue .P) := ⟨by decide, rfl, rfl⟩
theorem readyWrappingM : Ready .M (wrapping .M) := ⟨by decide, rfl, rfl⟩
theorem readyWrappingP : Ready .P (wrapping .P) := ⟨by decide, rfl, rfl⟩

/-- The hypotheses of `CommonFaults`: a halted block, and a live one with the command on port P. -/
theorem witness_CommonFaults : parametersValid (stopped .M).cfg = true ∧ (stopped .M).fault ≠ 0 ∧
    parametersValid (live .P).cfg = true ∧ (live .P).fault = 0 ∧ (live .P).port ≠ .M ∧
    (live .M).fault = 0 ∧ (live .M).port ≠ .P := by decide

/-- The hypothesis of `EncodedAs` at every operation code, once with the reserved bits clear and once with the highest set. -/
theorem witness_EncodedAs :
    (0x1FFFFFFF : Word).toNat / 2 ^ 28 = 0x1 ∧ (0x20FFFFFF : Word).toNat / 2 ^ 28 = 0x2 ∧
    (0x28000000 : Word).toNat / 2 ^ 28 = 0x2 ∧ (0x30000FFF : Word).toNat / 2 ^ 28 = 0x3 ∧
    (0x38000000 : Word).toNat / 2 ^ 28 = 0x3 ∧ (0x40000FFF : Word).toNat / 2 ^ 28 = 0x4 ∧
    (0x48000000 : Word).toNat / 2 ^ 28 = 0x4 ∧ (0x50000000 : Word).toNat / 2 ^ 28 = 0x5 ∧
    (0x58000000 : Word).toNat / 2 ^ 28 = 0x5 ∧ (0x60000FFF : Word).toNat / 2 ^ 28 = 0x6 ∧
    (0x68000000 : Word).toNat / 2 ^ 28 = 0x6 ∧ (0x7000FFFF : Word).toNat / 2 ^ 28 = 0x7 ∧
    (0x78000000 : Word).toNat / 2 ^ 28 = 0x7 ∧ (0x80000000 : Word).toNat / 2 ^ 28 = 0x8 ∧
    (0x88000000 : Word).toNat / 2 ^ 28 = 0x8 ∧ (0x900000FF : Word).toNat / 2 ^ 28 = 0x9 ∧
    (0x98000000 : Word).toNat / 2 ^ 28 = 0x9 ∧ (0xA0000000 : Word).toNat / 2 ^ 28 = 0xA ∧
    (0xA8000000 : Word).toNat / 2 ^ 28 = 0xA ∧ (0xB0000000 : Word).toNat / 2 ^ 28 = 0xB ∧
    (0xB8000000 : Word).toNat / 2 ^ 28 = 0xB ∧ (0xC0000000 : Word).toNat / 2 ^ 28 = 0xC ∧
    (0xC8000000 : Word).toNat / 2 ^ 28 = 0xC ∧ (0xD00000FF : Word).toNat / 2 ^ 28 = 0xD ∧
    (0xD8000000 : Word).toNat / 2 ^ 28 = 0xD := by decide

theorem witness_DecodeOfEncodeIsIdentity :
    (Instr.hsv2rgb 4095 255 255).wellFormed = true ∧ (Instr.pxset 255 255 255).wellFormed = true ∧
    (Instr.pixwr 4095).wellFormed = true ∧ (Instr.pixrd 4095).wellFormed = true ∧ Instr.fillall.wellFormed = true ∧
    (Instr.filln 4095).wellFormed = true ∧ (Instr.pulrd 65535).wellFormed = true ∧ Instr.crcinit.wellFormed = true ∧
    (Instr.crcupd 255).wellFormed = true ∧ Instr.crcrd.wellFormed = true ∧ Instr.qdeq.wellFormed = true ∧
    Instr.qlen.wellFormed = true ∧ (Instr.qenq 255).wellFormed = true := by decide

theorem witness_EncodeOfDecodeIsIdentity : decode 0x7000FFFF = .ok (.pulrd 65535) := by rfl

/-- V-HSV-23, V-HSV-18: an even and an odd sector with their intermediates. -/
theorem witness_Hsv2rgbLoadsConvertedPixel :
    (Instr.hsv2rgb 4095 255 255).wellFormed = true ∧ Ready .M (live .M) ∧
    135 = 4095 % 360 ∧ 255 = 255 * 255 / 255 ∧ 2 = 135 / 60 ∧ 15 = 135 % 60 ∧ 63 = 255 * 15 / 60 ∧ 0 = 255 - 255 ∧
    300 = 300 % 360 ∧ 5 = 300 / 60 ∧ 0 = 300 % 60 ∧ 255 = 255 * (60 - 0) / 60 :=
  ⟨by decide, readyM, by decide, by decide, by decide, by decide, by decide, by decide, by decide, by decide, by decide,
    by decide⟩

theorem witness_HsvConversionLaws : (Instr.hsv2rgb 359 255 255).wellFormed = true := by decide

theorem witness_PxsetLoadsImmediatePixel : Ready .M (live .M) := readyM

/-- The last index inside and the first outside; PX written and not. -/
theorem witness_PixwrStoresPixelRegister :
    Ready .M painted ∧ 2 < painted.cfg.N ∧ painted.pxWritten = true ∧ painted.cfg.N ≤ 3 ∧
    Ready .M (live .M) ∧ (live .M).pxWritten = false :=
  ⟨readyPainted, by decide, rfl, by decide, readyM, rfl⟩

/-- The last index inside and the first outside; the element written and not. -/
theorem witness_PixrdLoadsPixelRegister :
    Ready .M painted ∧ 2 < painted.cfg.N ∧ painted.pix.read 2 = some 0x0000FF ∧ painted.cfg.N ≤ 3 ∧
    Ready .M (live .M) ∧ (live .M).pix.read 2 = none :=
  ⟨readyPainted, by decide, rfl, by decide, readyM, rfl⟩

/-- The bytes and bits of V-ENC-04. -/
theorem witness_ExpansionIsGreenRedBlueMsbFirst :
    wireByte 0x0180A5 0 = (0x0180A5 : Pixel).extractLsb' 8 8 ∧ wireByte 0x0180A5 1 = (0x0180A5 : Pixel).extractLsb' 16 8 ∧
    wireByte 0x0180A5 2 = (0x0180A5 : Pixel).extractLsb' 0 8 ∧
    ∀ j, j < 24 → wireBit 0x0180A5 j = (wireByte 0x0180A5 (j / 8)).getLsbD (7 - j % 8) :=
  ⟨rfl, rfl, rfl, fun _ _ => rfl⟩

theorem witness_FillallEncodesEveryPixel : Ready .M painted := readyPainted

/-- No pixel, every pixel, and one more. -/
theorem witness_FillnEncodesLeadingPixels :
    Ready .M painted ∧ 0 ≤ painted.cfg.N ∧ 3 ≤ painted.cfg.N ∧ painted.cfg.N < 4 :=
  ⟨readyPainted, by decide, by decide, by decide⟩

/-- The third clause: a state with a terminator at index 0, a `QLEN` presented. -/
theorem witness_TerminatorStaysUntilNextFill :
    (Ready .M painted ∧ 3 ≤ painted.cfg.N ∧ ∃ t, exec (.filln 3) painted = .next t) ∧
    (∃ t, exec .fillall painted = .next t) ∧
    ∃ s t, step s = .next t ∧ (takeInput s).1 = .command .M 0xC0000000 ∧ decode 0xC0000000 = .ok .qlen ∧
      Terminated 0 s.pulse :=
  ⟨⟨readyPainted, by decide, _, exec_filln readyPainted 3⟩, ⟨_, exec_fillall readyPainted⟩,
    given { live .M with pulse := [(0, 0)] } [.command .M 0xC0000000], _, rfl, rfl, rfl, ⟨rfl, fun _ h => by omega⟩⟩

/-- The last index inside and the first outside; the element written and not. -/
theorem witness_PulrdReturnsDescriptor :
    Ready .M painted ∧ 72 ≤ 24 * painted.cfg.N ∧ 24 * painted.cfg.N < 73 ∧ painted.pulse.read 72 = none ∧
    Ready .M { painted with pulse := [(72, 0)] } ∧ Memory.read ([(72, 0)] : Memory 32) 72 = some 0 :=
  ⟨readyPainted, by decide, by decide, rfl, ⟨by decide, rfl, rfl⟩, rfl⟩

theorem witness_FilledPulsesDescribeTheLine :
    Ready .M painted ∧ [0xFF0000, 0x00FF00, 0x0000FF].length ≤ painted.cfg.N ∧
    (∀ i, i < 3 → painted.pix.read i = ([0xFF0000, 0x00FF00, 0x0000FF] : List Pixel)[i]?) ∧
    ∃ t, exec (.filln 3) painted = .next t :=
  ⟨readyPainted, by decide, by decide, _, exec_filln readyPainted 3⟩

theorem witness_StoredPixelReadsBack : Ready .M (live .M) ∧ 2 < (live .M).cfg.N := ⟨readyM, by decide⟩

theorem witness_CrcinitStartsComputation : Ready .M (live .M) := readyM

/-- The iterations of V-STEP-07. -/
theorem witness_CrcupdFoldsOneByte :
    Ready .M (live .M) ∧ ∃ u : Nat → BitVec 16, u 0 = (live .M).crc ^^^ ((0x01 : Byte).setWidth 16 <<< 8) ∧ u 8 = 0xF1D1 ∧
      ∀ n, n < 8 → u (n + 1) = if (u n).getLsbD 15 then (u n <<< 1) ^^^ 0x1021 else u n <<< 1 :=
  ⟨readyM, fun n => [0xFEFF, 0xEDDF, 0xCB9F, 0x871F, 0x1E1F, 0x3C3E, 0x787C, 0xF0F8, 0xF1D1].getD n 0, by decide, by decide,
    by decide⟩

theorem witness_CrcrdReturnsRegister : Ready .M (live .M) := readyM

theorem witness_CrcStepIsBijective : (0x00 : Byte) ≠ 0x01 := by decide

theorem witness_ChecksumOfSequenceIsFold : Ready .M (live .M) := readyM

theorem witness_WellMadeFrameIsValid :
    ([] : List Byte).length ≤ 1024 ∧ (List.replicate 1024 (0 : Byte)).length ≤ 1024 ∧ (0x00 : Byte) ≠ 0x01 ∧
    ([0x01] : List Byte).length ≤ 1024 ∧ 0 < ([0x01] : List Byte).length ∧ ([0x01] : List Byte)[0]? ≠ some 0x00 :=
  ⟨by decide, by rw [List.length_replicate], by decide, by decide, by decide, by decide⟩

/-- A full queue; one with a single free slot or more, its write pointer about to wrap. -/
theorem witness_QenqStoresOrDrops :
    (Ready .P (fullQueue .P) ∧
      (((fullQueue .P).qwr : Int) - (fullQueue .P).qrd) % (2 * (fullQueue .P).cfg.QCAP) = (fullQueue .P).cfg.QCAP) ∧
    Ready .P (wrapping .P) ∧
      (((wrapping .P).qwr : Int) - (wrapping .P).qrd) % (2 * (wrapping .P).cfg.QCAP) ≠ (wrapping .P).cfg.QCAP :=
  ⟨⟨readyFullP, by decide⟩, readyWrappingP, by decide⟩

theorem witness_QdeqRemovesOldest :
    (Ready .M (live .M) ∧ (live .M).qwr = (live .M).qrd) ∧ (Ready .M (wrapping .M) ∧ (wrapping .M).qwr ≠ (wrapping .M).qrd) ∧
    (wrapping .M).qmem.read ((wrapping .M).qrd % (wrapping .M).cfg.QCAP) = some 0xA0 :=
  ⟨⟨readyM, rfl⟩, ⟨readyWrappingM, by decide⟩, by decide⟩

/-- Empty and full. -/
theorem witness_QlenReturnsOccupancy :
    (Ready .M (live .M) ∧ ((0 : Nat) : Int) = (((live .M).qwr : Int) - (live .M).qrd) % (2 * (live .M).cfg.QCAP)) ∧
    Ready .M (fullQueue .M) ∧
      ((4 : Nat) : Int) = (((fullQueue .M).qwr : Int) - (fullQueue .M).qrd) % (2 * (fullQueue .M).cfg.QCAP) :=
  ⟨⟨readyM, by decide⟩, readyFullM, by decide⟩

theorem inv_live (p : Port) : Inv (live p) := by cases p <;> constructor <;> decide
theorem inv_fullQueue (p : Port) : Inv (fullQueue p) := by cases p <;> constructor <;> decide
theorem inv_wrapping (p : Port) : Inv (wrapping p) := by cases p <;> constructor <;> decide

/-- One state for each clause: room, full, a byte to take, empty. -/
theorem witness_QueueRefinesSequence :
    (Inv (wrapping .P) ∧ Ready .P (wrapping .P) ∧ (content (wrapping .P)).length < (wrapping .P).cfg.QCAP) ∧
    (Inv (fullQueue .P) ∧ Ready .P (fullQueue .P) ∧ (content (fullQueue .P)).length = (fullQueue .P).cfg.QCAP) ∧
    (Inv (wrapping .M) ∧ Ready .M (wrapping .M) ∧ content (wrapping .M) = [0xA0]) ∧
    (Inv (live .M) ∧ Ready .M (live .M) ∧ content (live .M) = []) ∧
    ((Instr.crcrd ≠ .qdeq ∧ ∀ b, Instr.crcrd ≠ .qenq b) ∧ ∃ t, exec .crcrd (fullQueue .M) = .next t) :=
  ⟨⟨inv_wrapping _, readyWrappingP, by decide⟩, ⟨inv_fullQueue _, readyFullP, by decide⟩,
    ⟨inv_wrapping _, readyWrappingM, by decide⟩, ⟨inv_live _, readyM, by decide⟩,
    ⟨⟨by decide, fun _ => by simp⟩, _, exec_crcrd readyFullM⟩⟩

/-- A byte enqueued and a byte dequeued. -/
def twoSteps : State := given (live .M) [.command .P 0xD0000044, .command .M 0xB0000000]

theorem witness_AcceptedBytesLeaveInOrder :
    Inv twoSteps ∧ NoReset twoSteps ∧ ∃ t, Sys2Proof.core.run 2 twoSteps = .next t ∧ collected returnedByte 2 twoSteps = [0x44] :=
  ⟨by constructor <;> decide, fun m p => by simp [twoSteps, given], _, rfl, by decide⟩

/-- A word of an operation, and one of none on a live and on a halted block. -/
theorem witness_StepRunsTheDecodedCommand :
    parametersValid tiny = true ∧ (given (live .M) [.command .P 0xD0000044]).inbox = .command .P 0xD0000044 :: [] ∧
    decode 0xD0000044 = .ok (.qenq 0x44) ∧ decode 0x00000000 = .error .unassignedOperation ∧ (live .M).fault = 0 ∧
    (stopped .M).fault ≠ 0 :=
  ⟨by decide, rfl, rfl, rfl, rfl, by decide⟩

theorem witness_IdleStepChangesNothing : parametersValid (live .M).cfg = true ∧ (live .M).inbox = [] := by decide

theorem witness_SimultaneousPairIsSerial :
    (given (live .M) [.pair 0xB0000000 0xD000005A]).inbox = .pair 0xB0000000 0xD000005A :: [] := rfl

theorem witness_EnqueueCommutesWithOtherUnits :
    (Instr.crcinit ≠ .qdeq ∧ Instr.crcinit ≠ .qlen ∧ ∀ b, Instr.crcinit ≠ .qenq b) ∧
    ∃ u t, exec .crcinit ((live .M).setPort .M) = .next u ∧ u.fault = 0 ∧ exec (.qenq 0x44) (u.setPort .P) = .next t :=
  ⟨⟨by decide, by decide, fun _ => by simp⟩, _, _, rfl, rfl, rfl⟩

theorem witness_ResetStepClearsTheBlock : parametersValid (stopped .M).cfg = true ∧
    (given (stopped .M) [.reset (some 0xC0000000) none]).inbox = .reset (some 0xC0000000) none :: [] := by decide

theorem witness_FaultCodeOfEveryCommand : parametersValid (live .M).cfg = true := by decide

/-- A response with code 3. -/
theorem witness_RaisedFaultWritesOnlyItsCode :
    ∃ t r, present .M 0x30000003 painted = .next t ∧ responseOn .M t = some r ∧ r.fault ≠ 0 ∧ r.fault ≠ 6 :=
  ⟨_, { fault := 3, flag := false, data := 0 }, rfl, by decide, by decide, by decide⟩

/-- A halted block given a command, and given reset. -/
theorem witness_HaltedUntilReset :
    (stopped .M).fault ≠ 0 ∧
    (∃ t, step (given (stopped .M) [.command .P 0xD0000044]) = .next t) ∧
    (takeInput (given (stopped .M) [.command .P 0xD0000044])).1 = .command .P 0xD0000044 ∧
    (∃ t, step (given (stopped .M) [.reset none none]) = .next t) ∧
    (takeInput (given (stopped .M) [.reset none none])).1 = .reset :=
  ⟨by decide, ⟨_, rfl⟩, rfl, ⟨_, rfl⟩, rfl⟩

theorem witness_ResponseOnOwnPortOnly :
    (takeInput (given (live .M) [.command .P 0xD0000044])).1 = .command .P 0xD0000044 ∧
    ∃ t, step (given (live .M) [.command .P 0xD0000044]) = .next t := ⟨rfl, _, rfl⟩

/-- A byte stored, and one that is dropped. -/
theorem witness_FlagSaysByteMoved :
    (Inv (wrapping .P) ∧ ∃ t, exec (.qenq 0xA1) (wrapping .P) = .next t ∧
      responseOn .P t = some { fault := 0, flag := true, data := 0 }) ∧
    Inv (fullQueue .P) ∧ ∃ t, exec (.qenq 0x55) (fullQueue .P) = .next t ∧
      responseOn .P t = some { fault := 0, flag := false, data := 0 } :=
  ⟨⟨inv_wrapping _, _, rfl, by decide⟩, inv_fullQueue _, _, rfl, by decide⟩

theorem witness_EveryOperationCompletes :
    parametersValid (live .M).cfg = true ∧ parametersValid { tiny with N := 0 } = false := by decide

/-- A command performed, and one that raises a fault. -/
theorem witness_WriteSetsAreComplete :
    (∃ t, exec .qdeq (fullQueue .M) = .next t) ∧ ∃ t, exec (.pixwr 3) painted = .next t := ⟨⟨_, rfl⟩, _, rfl⟩

theorem witness_PortsKeepToTheirState :
    (takeInput (given (live .M) [.command .P 0xD0000044])).1 = .command .P 0xD0000044 ∧
    (∃ t, step (given (live .M) [.command .P 0xD0000044]) = .next t) ∧
    (takeInput (given (live .M) [.command .M 0xB0000000])).1 = .command .M 0xB0000000 ∧
    ∃ t, step (given (live .M) [.command .M 0xB0000000]) = .next t := ⟨rfl, ⟨_, rfl⟩, rfl, _, rfl⟩

theorem witness_UnitsLearnNothingOfEachOther :
    (Instr.fillall ≠ .qdeq ∧ Instr.fillall ≠ .qlen ∧ (∀ b, Instr.fillall ≠ .qenq b) ∧ ∃ t, exec .fillall painted = .next t) ∧
    ∃ t, exec .qdeq (fullQueue .M) = .next t :=
  ⟨⟨by decide, by decide, fun _ => by simp, _, exec_fillall readyPainted⟩, _, rfl⟩

/-- One state in which each of the operations may be repeated. -/
theorem witness_RepeatableOperationsAreIdempotent :
    painted.fault = 0 ∧ painted.pxWritten = true ∧ (∀ a, a < 3 → (painted.pix.read a).isSome = true) ∧
    (∃ t, exec (.pxset 1 2 3) painted = .next t ∧ t.fault = 0) ∧ (∃ t, exec .crcinit painted = .next t ∧ t.fault = 0) ∧
    (∃ t, exec .crcrd painted = .next t ∧ t.fault = 0) ∧ (∃ t, exec .qlen painted = .next t ∧ t.fault = 0) ∧
    (∃ t, exec (.pixwr 2) painted = .next t ∧ t.fault = 0) ∧ (∃ t, exec (.filln 3) painted = .next t ∧ t.fault = 0) ∧
    (∃ t, exec .fillall painted = .next t ∧ t.fault = 0) ∧
    Memory.read ([(72, 0)] : Memory 32) 72 = some 0 ∧
    ∃ t, exec (.pulrd 72) { painted with pulse := [(72, 0)] } = .next t ∧ t.fault = 0 :=
  ⟨rfl, rfl, by decide, ⟨_, rfl, rfl⟩, ⟨_, rfl, rfl⟩, ⟨_, rfl, rfl⟩, ⟨_, rfl, rfl⟩, ⟨_, rfl, rfl⟩,
    ⟨_, exec_filln readyPainted 3, rfl⟩, ⟨_, exec_fillall readyPainted, rfl⟩, rfl, ⟨_, rfl, rfl⟩⟩

theorem witness_ParametersNeverChange : ∃ t, step (given (live .M) [.command .M 0xC0000000]) = .next t := ⟨_, rfl⟩

/-- A full queue whose oldest byte is taken. -/
theorem witness_StepKeepsInvariant :
    Inv (given (fullQueue .M) [.command .M 0xB0000000]) ∧ ∃ t, step (given (fullQueue .M) [.command .M 0xB0000000]) = .next t :=
  ⟨by constructor <;> decide, _, rfl⟩

end Sys2Proof.Tests
end

section
/-! PROOFS. The scope of the model (00_scope.md section 4): which parameter sets have a meaning (R6), and that none changes
while the block runs (R5). -/

namespace Sys2Proof.Machine

open Sys2Proof.Safety

/-! ## The parameters -/

theorem parametersValid_iff (c : Config) : parametersValid c = true ↔
    (1 ≤ c.N ∧ c.N ≤ 2730) ∧ (∀ d ∈ [c.T0H, c.T0L, c.T1H, c.T1L], 1 ≤ d ∧ d ≤ 65535) ∧
    ¬ (c.T0H = c.T1H ∧ c.T0L = c.T1L) ∧ 1 ≤ c.QCAP ∧ c.QCAP ≤ 2 ^ 30 := by
  have durations : (∀ d ∈ [c.T0H, c.T0L, c.T1H, c.T1L], 1 ≤ d ∧ d ≤ 65535) ↔
      (1 ≤ c.T0H ∧ c.T0H ≤ 65535) ∧ (1 ≤ c.T0L ∧ c.T0L ≤ 65535) ∧
      (1 ≤ c.T1H ∧ c.T1H ≤ 65535) ∧ (1 ≤ c.T1L ∧ c.T1L ≤ 65535) := by
    simp only [List.forall_mem_cons, List.not_mem_nil, false_implies, implies_true, and_true]
  have pulses : (c.T0H, c.T0L) ≠ (c.T1H, c.T1L) ↔ ¬ (c.T0H = c.T1H ∧ c.T0L = c.T1L) :=
    not_congr Prod.mk_inj
  rw [parametersValid, decide_eq_true_eq, durations, pulses]
  simp only [and_assoc]

/-! ## What a command and a step leave outside the block's state -/

/-- Every outcome of an instruction is built from the state operations of Sys2Proof/Laws/State.lean, none of which touches
the parameters, the port or the coming inputs. -/
theorem ExecOutcome.keepsOutside {i : Instr} {s t : State} (h : ExecOutcome i s t) : KeepsOutside s t := by
  cases h <;> exact ⟨rfl, rfl, rfl⟩

/-- From each outcome of a step: the inputs, the draws and the port are set, or the block is reset, on the same
parameters. -/
theorem StepOutcome.cfg_eq {s t : State} (h : StepOutcome s t) : t.cfg = s.cfg := by
  cases h with
  | nothing _ e => rw [e]
  | reset _ l n e => simp [e]
  | performed p _ l n _ _ _ e => simpa using e.keepsOutside.cfg
  | halted p _ l n _ _ _ _ e => simp [e]
  | illegal p _ l n _ _ _ _ e => simp [e]

end Sys2Proof.Machine

open Sys2Proof.Machine

/-- Settles O47 (00_scope.md R5), from the outcomes of a step. -/
theorem parametersNeverChange : Obligations.ParametersNeverChange := by
  intro s t h
  exact (step_outcome h).cfg_eq

/-- Settles O42 (00_scope.md R6), the characterisation of the accepted parameter sets. -/
theorem parameterConstraints : Obligations.ParameterConstraints := by
  intro c
  exact parametersValid_iff c
end

section
/-! PROOFS. The state (10_state.md): the invariant (R41), the write sets and read sets (R34), the flag (R27), FAULT (R28) and
the state after reset (R40). -/

namespace Sys2Proof.Safety

open Sys2Proof.Machine

/-! ## The queue after reset -/

theorem occupancy_of_qwr_eq_qrd {s : State} (h : s.qwr = s.qrd) : occupancy s = 0 := by
  simp [occupancy, h]

@[simp] theorem occupancy_resetBlock (s : State) : occupancy (resetBlock s) = 0 := occupancy_of_qwr_eq_qrd rfl

@[simp] theorem content_resetBlock (s : State) : content (resetBlock s) = [] := by
  simp [content]

/-! ## The invariant -/

/-- Where the queue and the parameters are as before, only FAULT, PIX and PULSE are left to look at. -/
theorem Inv.of_queueKept {s t : State} (hi : Inv s) (hcfg : t.cfg = s.cfg) (hqwr : t.qwr = s.qwr) (hqrd : t.qrd = s.qrd)
    (hqmem : t.qmem = s.qmem) (hfault : t.fault.toNat ≤ 5) (hpix : Memory.wf s.cfg.N t.pix = true)
    (hpulse : Memory.wf s.cfg.PLEN t.pulse = true) : Inv t := by
  have hocc : occupancy t = occupancy s := occupancy_congr hqwr hqrd hcfg
  constructor
  · rw [hcfg]; exact hi.valid
  · rw [hcfg, hqwr]; exact hi.qwr_lt
  · rw [hcfg, hqrd]; exact hi.qrd_lt
  · rw [hcfg, hocc]; exact hi.occupancy_le
  · exact hfault
  · rw [hcfg]; exact hpix
  · rw [hcfg]; exact hpulse
  · rw [hcfg, hqmem]; exact hi.qmem_wf
  · rw [hcfg, hqmem, hqrd, hocc]; exact hi.content_stored

theorem Inv.respond {s : State} (hi : Inv s) (r : Response) : Inv (s.respond r) :=
  hi.of_queueKept rfl rfl rfl rfl hi.fault_code hi.pix_wf hi.pulse_wf

/-- The invariant does not speak of the inputs, the draws or the port. -/
theorem Inv.presented {s : State} (hi : Inv s) (l : List Input) (n : Nat) (p : Port) :
    Inv (((s.setInbox l).setDraws n).setPort p) :=
  hi.of_queueKept rfl rfl rfl rfl hi.fault_code hi.pix_wf hi.pulse_wf

theorem inv_resetBlock {s : State} (hv : parametersValid s.cfg = true) : Inv (resetBlock s) where
  valid := hv
  qwr_lt := by have := qcap_of_valid hv; simp; omega
  qrd_lt := by have := qcap_of_valid hv; simp; omega
  occupancy_le := by simp
  fault_code := by simp
  pix_wf := rfl
  pulse_wf := rfl
  qmem_wf := rfl
  content_stored := by simp

/-- Storing a byte in a queue that is not full: the new slot is the one after the content (44_bytequeue.md R181). -/
theorem Inv.pushByte {s : State} (hi : Inv s) (hn : occupancy s ≠ s.cfg.QCAP) (b : Byte) : Inv (pushByte b s) := by
  obtain ⟨hocc, hold, hnew, hqwr⟩ := pushByte_spec hi hn b
  have hslot : slotOf s.cfg s.qwr < s.cfg.QCAP := Nat.mod_lt _ (qcap_of_valid hi.valid).1
  refine ⟨hi.valid, hqwr, hi.qrd_lt, ?_, hi.fault_code, hi.pix_wf, hi.pulse_wf, Memory.wf_write hi.qmem_wf hslot, ?_⟩
  · rw [hocc]; exact Nat.lt_of_le_of_ne hi.occupancy_le hn
  · intro j hj
    rw [hocc] at hj
    rcases Nat.lt_succ_iff_lt_or_eq.mp hj with hlt | rfl
    · exact (congrArg Option.isSome (hold j hlt)).trans (hi.content_stored j hlt)
    · exact congrArg Option.isSome hnew

/-- Removing a byte: what was at place `j + 1` of the content is at place `j` (44_bytequeue.md R184). -/
theorem Inv.popByte {s : State} (hi : Inv s) (hn : s.qwr ≠ s.qrd) : Inv (popByte s).2 := by
  obtain ⟨_, hocc, hplace, hqrd⟩ := popByte_spec hi hn
  refine ⟨hi.valid, hi.qwr_lt, hqrd, ?_, hi.fault_code, hi.pix_wf, hi.pulse_wf, hi.qmem_wf, ?_⟩
  · have hle : occupancy s ≤ s.cfg.QCAP := hi.occupancy_le
    change occupancy (Machine.popByte s).2 ≤ s.cfg.QCAP
    omega
  · intro j hj
    have hstored := hi.content_stored (j + 1) (by omega)
    rw [← hplace j] at hstored
    exact hstored

/-! ## What each state operation writes -/

section WritesOfOneOperation

variable {l : List Piece} {s u t : State}

theorem OnlyWrites.trans (h : OnlyWrites l s u) (h' : OnlyWrites l u t) : OnlyWrites l s t where
  px n := ⟨(h'.px n).1.trans (h.px n).1, (h'.px n).2.trans (h.px n).2⟩
  crc n := (h'.crc n).trans (h.crc n)
  qwr n := (h'.qwr n).trans (h.qwr n)
  qrd n := (h'.qrd n).trans (h.qrd n)
  fault n := (h'.fault n).trans (h.fault n)
  pix n a := (h'.pix n a).trans (h.pix n a)
  pulse n a := (h'.pulse n a).trans (h.pulse n a)
  qmem n a := (h'.qmem n a).trans (h.qmem n a)

theorem OnlyWrites.setPx (h : OnlyWrites l s u) (hm : .px ∈ l) (v : Pixel) : OnlyWrites l s (u.setPx v) :=
  { h with px := fun n => absurd hm n }

theorem OnlyWrites.setCrc (h : OnlyWrites l s u) (hm : .crc ∈ l) (v : BitVec 16) : OnlyWrites l s (u.setCrc v) :=
  { h with crc := fun n => absurd hm n }

theorem OnlyWrites.setQwr (h : OnlyWrites l s u) (hm : .qwr ∈ l) (v : Nat) : OnlyWrites l s (u.setQwr v) :=
  { h with qwr := fun n => absurd hm n }

theorem OnlyWrites.setQrd (h : OnlyWrites l s u) (hm : .qrd ∈ l) (v : Nat) : OnlyWrites l s (u.setQrd v) :=
  { h with qrd := fun n => absurd hm n }

theorem OnlyWrites.setFault (h : OnlyWrites l s u) (hm : .fault ∈ l) (v : BitVec 4) : OnlyWrites l s (u.setFault v) :=
  { h with fault := fun n => absurd hm n }

theorem OnlyWrites.writePix (h : OnlyWrites l s u) (hm : .pix ∈ l) (i : Nat) (vs : List Pixel) :
    OnlyWrites l s (u.writePix i vs) :=
  { h with pix := fun n => absurd hm n }

theorem OnlyWrites.writePulse (h : OnlyWrites l s u) (hm : .pulse ∈ l) (i : Nat) (vs : List Desc) :
    OnlyWrites l s (u.writePulse i vs) :=
  { h with pulse := fun n => absurd hm n }

theorem OnlyWrites.writeQmem (h : OnlyWrites l s u) (hm : .qmem ∈ l) (i : Nat) (vs : List Byte) :
    OnlyWrites l s (u.writeQmem i vs) :=
  { h with qmem := fun n => absurd hm n }

theorem OnlyWrites.setDraws (h : OnlyWrites l s u) (n : Nat) : OnlyWrites l s (u.setDraws n) := { h with }

theorem OnlyWrites.setInbox (h : OnlyWrites l s u) (is : List Input) : OnlyWrites l s (u.setInbox is) := { h with }

theorem OnlyWrites.setPort (h : OnlyWrites l s u) (p : Port) : OnlyWrites l s (u.setPort p) := { h with }

theorem OnlyWrites.pushByte (h : OnlyWrites l s u) (hq : .qmem ∈ l) (hw : .qwr ∈ l) (b : Byte) :
    OnlyWrites l s (pushByte b u) :=
  (h.writeQmem hq _ _).setQwr hw _

theorem OnlyWrites.popByte (h : OnlyWrites l s u) (hr : .qrd ∈ l) : OnlyWrites l s (popByte u).2 :=
  (h.setDraws _).setQrd hr _

end WritesOfOneOperation

/-- What a command on port `p` finds: taking it writes no piece of the block's state. -/
theorem onlyWrites_presented (l : List Piece) (s : State) (is : List Input) (n : Nat) (p : Port) :
    OnlyWrites l s (((s.setInbox is).setDraws n).setPort p) :=
  (((OnlyWrites.refl l s).setInbox is).setDraws n).setPort p

end Sys2Proof.Safety

namespace Sys2Proof.Machine

open Sys2Proof.Safety

variable {i : Instr} {s t : State}

/-! ## FAULT -/

theorem Cause.code_bounds (c : Cause) : 1 ≤ c.code.toNat ∧ c.code.toNat ≤ 5 := by
  cases c <;> decide

/-- FAULT stays, or goes from 0 to the code of a cause (10_state.md R28). -/
theorem ExecOutcome.fault_cases (h : ExecOutcome i s t) :
    t.fault = s.fault ∨ (s.fault = 0 ∧ ∃ c : Cause, t.fault = c.code) := by
  cases h with
  | otherPort _ hf => exact .inr ⟨hf, .illegalPort, rfl⟩
  | pixRange h => exact .inr ⟨h.live, .pixRange, rfl⟩
  | fillRange h => exact .inr ⟨h.live, .fillRange, rfl⟩
  | pulseRange h => exact .inr ⟨h.live, .pulseRange, rfl⟩
  | _ => exact .inl rfl

theorem ExecOutcome.fault_le (h : ExecOutcome i s t) (hs : s.fault.toNat ≤ 5) : t.fault.toNat ≤ 5 := by
  rcases h.fault_cases with e | ⟨_, c, e⟩
  · rw [e]; exact hs
  · rw [e]; exact c.code_bounds.2

/-! ## The invariant -/

/-- The range checks keep what `PIXWR` and the fills write inside the spaces; `QENQ` and `QDEQ` are the queue's two laws; every
other outcome leaves the queue and the arrays alone. -/
theorem ExecOutcome.keepsInv (h : ExecOutcome i s t) (hi : Inv s) : Inv t := by
  have hf : t.fault.toNat ≤ 5 := h.fault_le hi.fault_code
  cases h with
  | pixwr _ idx _ hr => exact hi.of_queueKept rfl rfl rfl rfl hf (Memory.wf_write hi.pix_wf hr) hi.pulse_wf
  | filled _ k _ hr =>
    have hlen : 0 + (fillImage s.cfg (readPixRun 0 k s).1).length ≤ s.cfg.PLEN := by
      have hk : (readPixRun 0 k s).1.length = k := storedOrDrawRun_length ..
      rw [fillImage_length, hk, Config.PLEN]
      omega
    exact hi.of_queueKept rfl rfl rfl rfl hf hi.pix_wf (Memory.wf_write hi.pulse_wf hlen)
  | deq _ _ he => exact (hi.popByte he).respond _
  | enq _ b _ he => exact (hi.pushByte he b).respond _
  | _ => exact hi.of_queueKept rfl rfl rfl rfl hf hi.pix_wf hi.pulse_wf

theorem StepOutcome.keepsInv (h : StepOutcome s t) (hi : Inv s) : Inv t := by
  cases h with
  | nothing _ e => rw [e]; exact hi
  | reset _ l n e => rw [e]; exact inv_resetBlock (s := (s.setInbox l).setDraws n) hi.valid
  | performed p w l n _ i _ e => exact e.keepsInv (hi.presented l n p)
  | halted p w l n _ _ _ _ e => rw [e]; exact (hi.presented l n p).respond _
  | illegal p w l n _ _ _ _ e =>
    rw [e]
    exact hi.of_queueKept rfl rfl rfl rfl (Cause.code_bounds .illegalOp).2 hi.pix_wf hi.pulse_wf

/-! ## The write sets -/

/-- The pieces an operation may write besides FAULT (10_state.md R34). -/
def writeSet : Instr → List Piece
  | .hsv2rgb _ _ _ => [.px]
  | .pxset _ _ _ => [.px]
  | .pixwr _ => [.pix]
  | .pixrd _ => [.px]
  | .fillall => [.pulse]
  | .filln _ => [.pulse]
  | .pulrd _ => []
  | .crcinit => [.crc]
  | .crcupd _ => [.crc]
  | .crcrd => []
  | .qdeq => [.qrd]
  | .qlen => []
  | .qenq _ => [.qmem, .qwr]

/-- The pieces the operations of a port may write besides FAULT (10_state.md R34). -/
def portWriteSet : Port → List Piece
  | .M => [.px, .crc, .qrd, .pix, .pulse]
  | .P => [.qwr, .qmem]

theorem writeSet_subset_portWriteSet (i : Instr) : writeSet i ⊆ portWriteSet i.owner := by
  cases i <;> simp [writeSet, portWriteSet, Instr.owner]

theorem ExecOutcome.onlyWrites (h : ExecOutcome i s t) : OnlyWrites (.fault :: writeSet i) s t := by
  have start := OnlyWrites.refl (.fault :: writeSet i) s
  cases h with
  | halted | deqEmpty | qlen | enqFull => exact start.respond _
  | otherPort | pixRange | fillRange | pulseRange => exact (start.setFault (by simp) _).respond _
  | loaded _ v hi =>
    have hm : .px ∈ writeSet i := by rcases hi with ⟨_, _, _, rfl, _⟩ | ⟨_, _, _, rfl, _⟩ <;> simp [writeSet]
    exact (start.setPx (by simp [hm]) v).respond _
  | pixwr _ idx hi => subst hi; exact ((start.setDraws _).writePix (by simp [writeSet]) idx _).respond _
  | pixrd _ idx hi => subst hi; exact ((start.setDraws _).setPx (by simp [writeSet]) _).respond _
  | filled _ k hi =>
    have hm : .pulse ∈ writeSet i := by rcases hi with rfl | ⟨rfl, _⟩ <;> simp [writeSet]
    exact ((start.setDraws _).writePulse (by simp [hm]) 0 _).respond _
  | pulrd => exact (start.setDraws _).respond _
  | crc _ v hi =>
    rcases hi with ⟨rfl, _⟩ | ⟨b, rfl, _⟩ | ⟨rfl, rfl⟩
    · exact (start.setCrc (by simp [writeSet]) v).respond _
    · exact (start.setCrc (by simp [writeSet]) v).respond _
    · exact start.respond _
  | deq _ hi => subst hi; exact (start.popByte (by simp [writeSet])).respond _
  | enq _ b hi => subst hi; exact (start.pushByte (by simp [writeSet]) (by simp [writeSet]) b).respond _

/-- A command that its port does not own writes at most FAULT. -/
theorem ExecOutcome.onlyWrites_fault_or_ready (h : ExecOutcome i s t) : OnlyWrites [.fault] s t ∨ Ready i.owner s := by
  have start := OnlyWrites.refl [.fault] s
  cases h with
  | halted => exact .inl (start.respond _)
  | otherPort => exact .inl ((start.setFault (by simp) _).respond _)
  | pixRange h | fillRange h | pulseRange h | loaded h | pixwr h | pixrd h | filled h | pulrd h | crc h | deqEmpty h | deq h
  | qlen h | enqFull h | enq h => exact .inr h

theorem ExecOutcome.onlyWrites_portWriteSet (h : ExecOutcome i s t) : OnlyWrites (.fault :: portWriteSet s.port) s t := by
  rcases h.onlyWrites_fault_or_ready with hw | hr
  · exact hw.mono (by simp)
  · rw [hr.onPort]
    exact h.onlyWrites.mono (List.cons_subset_cons _ (writeSet_subset_portWriteSet i))

/-- Whatever word is taken from a port, the step writes at most FAULT and the pieces of that port's operations. -/
theorem StepOutcome.onlyWrites_of_command (h : StepOutcome s t) {p : Port} {w : Word}
    (hc : (takeInput s).1 = .command p w) : OnlyWrites (.fault :: portWriteSet p) s t := by
  cases h with
  | nothing h => rw [h] at hc; cases hc
  | reset h => rw [h] at hc; cases hc
  | performed p' w' l n h i _ e =>
    rw [h] at hc; cases hc
    exact (onlyWrites_presented _ s l n p).trans e.onlyWrites_portWriteSet
  | halted p' w' l n h _ _ _ e =>
    rw [h] at hc; cases hc
    rw [e]; exact (onlyWrites_presented _ s l n p).respond _
  | illegal p' w' l n h _ _ _ e =>
    rw [h] at hc; cases hc
    rw [e]; exact ((onlyWrites_presented _ s l n p).setFault (by simp) _).respond _

/-! ## The flag -/

theorem nextPointer_ne {c : Config} {p : Nat} (hp : p < 2 * c.QCAP) : nextPointer c p ≠ p := by
  rcases nextPointer_cases hp with ⟨_, e⟩ | ⟨_, e⟩ <;> omega

theorem eq_of_responseOn_respond {u : State} {p : Port} {r r' : Response} (hp : u.port = p)
    (h : responseOn p (u.respond r') = some r) : r = r' := by
  subst hp
  cases hu : u.port <;> simp_all [responseOn]

/-- What the flag and the pointers do together (10_state.md R27). -/
theorem ExecOutcome.flag_cases (h : ExecOutcome i s t) {r : Response} (hr : responseOn s.port t = some r) :
    (r.flag = false ∧ t.qwr = s.qwr ∧ t.qrd = s.qrd) ∨
    (r.flag = true ∧ (∃ b, i = .qenq b) ∧ t.qwr = nextPointer s.cfg s.qwr ∧ t.qrd = s.qrd) ∨
    (r.flag = true ∧ i = .qdeq ∧ t.qwr = s.qwr ∧ t.qrd = nextPointer s.cfg s.qrd) := by
  cases h with
  | enq _ b hi => obtain rfl := eq_of_responseOn_respond rfl hr; exact .inr (.inl ⟨rfl, ⟨b, hi⟩, rfl, rfl⟩)
  | deq _ hi => obtain rfl := eq_of_responseOn_respond rfl hr; exact .inr (.inr ⟨rfl, hi, rfl, rfl⟩)
  | _ => obtain rfl := eq_of_responseOn_respond rfl hr; exact .inl ⟨rfl, rfl, rfl⟩

/-! ## The read sets -/

/-- `ExecOutcome` says what `exec` answers, and not only what it may answer. -/
theorem ExecOutcome.exec_eq (h : ExecOutcome i s t) : exec i s = .next t := by
  cases h with
  | halted hv hf =>
    obtain ⟨k, hk⟩ := exec_eq_onOwnPort i
    rw [hk, onOwnPort_halted hv hf]
  | otherPort hv hf hp =>
    obtain ⟨k, hk⟩ := exec_eq_onOwnPort i
    rw [hk, onOwnPort_otherPort hv hf hp]; rfl
  | pixRange h idx hi hr =>
    rcases hi with rfl | rfl
    · rw [exec_pixwr h, if_pos hr]; rfl
    · rw [exec_pixrd h, if_pos hr]; rfl
  | fillRange h k hi hr => subst hi; rw [exec_filln h, if_pos hr]; rfl
  | pulseRange h idx hi hr => subst hi; rw [exec_pulrd h, if_pos hr]; rfl
  | loaded h v hi =>
    rcases hi with ⟨_, _, _, rfl, rfl⟩ | ⟨_, _, _, rfl, rfl⟩
    · rw [exec_hsv2rgb h]; rfl
    · rw [exec_pxset h]; rfl
  | pixwr h idx hi hr => subst hi; rw [exec_pixwr h, if_neg (by omega)]; rfl
  | pixrd h idx hi hr => subst hi; rw [exec_pixrd h, if_neg (by omega)]; rfl
  | filled h k hi hr =>
    rcases hi with rfl | ⟨rfl, rfl⟩
    · rw [exec_filln h, if_neg (by omega)]; rfl
    · rw [exec_fillall h]; rfl
  | pulrd h idx hi hr => subst hi; rw [exec_pulrd h, if_neg (by omega)]; rfl
  | crc h v hi =>
    rcases hi with ⟨rfl, rfl⟩ | ⟨_, rfl, rfl⟩ | ⟨rfl, rfl⟩
    · rw [exec_crcinit h]; rfl
    · rw [exec_crcupd h]; rfl
    · rw [exec_crcrd h]; rfl
  | deqEmpty h hi he =>
    subst hi
    have hq : queueEmpty s = true := by simp [queueEmpty, he]
    rw [exec_qdeq h, if_pos hq, returnedFlag, hq]; rfl
  | deq h hi he =>
    subst hi
    have hq : queueEmpty s = false := by simp [queueEmpty, he]
    rw [exec_qdeq h, if_neg (by simp [hq]), returnedFlag, hq]; rfl
  | qlen h hi => subst hi; rw [exec_qlen h]; rfl
  | enqFull h b hi he =>
    subst hi
    have hq : queueFull s = true := by simp [queueFull, he]
    rw [exec_qenq h, if_pos hq, acceptedFlag, hq]; rfl
  | enq h b hi he =>
    subst hi
    have hq : queueFull s = false := by simp [queueFull, he]
    rw [exec_qenq h, if_neg (by simp [hq]), acceptedFlag, hq]; rfl

/-- Another queue in the place of the state's own. -/
def State.withQueue (s : State) (qwr qrd : Nat) (qmem : Memory 8) : State := { s with qwr := qwr, qrd := qrd, qmem := qmem }

/-- Other contents of units HSV, ENC and CRC in the place of the state's own. -/
def State.withUnits (s : State) (px : Pixel) (written : Bool) (crc : BitVec 16) (pix : Memory 24) (pulse : Memory 32) :
    State := { s with px := px, pxWritten := written, crc := crc, pix := pix, pulse := pulse }

/-- Other earlier responses. -/
def State.withResponses (s : State) (respM respP : Option Response) : State := { s with respM := respM, respP := respP }

/-- A response takes the place of the earlier one on port `p`, on which it is given, and of no other. -/
def State.withResponsesOff (s : State) (p : Port) (respM respP : Option Response) : State :=
  s.withResponses (if p = .M then s.respM else respM) (if p = .P then s.respP else respP)

theorem withResponsesOff_respond {u : State} {p : Port} (hp : u.port = p) (r : Response) (respM respP : Option Response) :
    (u.respond r).withResponsesOff p respM respP = (u.withResponses respM respP).respond r := by
  subst hp
  cases hu : u.port <;> simp [State.withResponsesOff, State.withResponses, State.respond, hu]

/-- The outcomes of units HSV, ENC and CRC, with another queue and other earlier responses. -/
theorem ExecOutcome.withQueue (h : ExecOutcome i s t) (hdeq : i ≠ .qdeq) (hlen : i ≠ .qlen) (henq : ∀ b, i ≠ .qenq b)
    (qwr qrd : Nat) (qmem : Memory 8) (respM respP : Option Response) :
    ExecOutcome i ((s.withQueue qwr qrd qmem).withResponses respM respP)
      ((t.withQueue qwr qrd qmem).withResponsesOff s.port respM respP) := by
  have answered {u : State} {r : Response} (hp : u.port = s.port)
      (ho : ExecOutcome i ((s.withQueue qwr qrd qmem).withResponses respM respP)
        (((u.withQueue qwr qrd qmem).withResponses respM respP).respond r)) :
      ExecOutcome i ((s.withQueue qwr qrd qmem).withResponses respM respP)
        (((u.respond r).withQueue qwr qrd qmem).withResponsesOff s.port respM respP) := by
    rw [← withResponsesOff_respond (u := u.withQueue qwr qrd qmem) hp] at ho
    exact ho
  have ready : Ready i.owner s → Ready i.owner ((s.withQueue qwr qrd qmem).withResponses respM respP) :=
    fun h => ⟨h.valid, h.live, h.onPort⟩
  cases h with
  | halted hv hf => exact answered rfl (.halted hv hf)
  | otherPort hv hf hp => exact answered rfl (.otherPort hv hf hp)
  | pixRange h idx hi hr => exact answered rfl (.pixRange (ready h) idx hi hr)
  | fillRange h k hi hr => exact answered rfl (.fillRange (ready h) k hi hr)
  | pulseRange h idx hi hr => exact answered rfl (.pulseRange (ready h) idx hi hr)
  | loaded h v hi => exact answered rfl (.loaded (ready h) v hi)
  | pixwr h idx hi hr => exact answered rfl (.pixwr (ready h) idx hi hr)
  | pixrd h idx hi hr => exact answered rfl (.pixrd (ready h) idx hi hr)
  | filled h k hi hr => exact answered rfl (.filled (ready h) k hi hr)
  | pulrd h idx hi hr => exact answered rfl (.pulrd (ready h) idx hi hr)
  | crc h v hi => exact answered rfl (.crc (ready h) v hi)
  | deqEmpty _ hi | deq _ hi => exact absurd hi hdeq
  | qlen _ hi => exact absurd hi hlen
  | enqFull _ b hi | enq _ b hi => exact absurd hi (henq b)

/-- The outcomes of unit Q, with other contents of the other units and other earlier responses. -/
theorem ExecOutcome.withUnits (h : ExecOutcome i s t) (hq : i = .qdeq ∨ i = .qlen ∨ ∃ b, i = .qenq b)
    (px : Pixel) (written : Bool) (crc : BitVec 16) (pix : Memory 24) (pulse : Memory 32)
    (respM respP : Option Response) :
    ExecOutcome i ((s.withUnits px written crc pix pulse).withResponses respM respP)
      ((t.withUnits px written crc pix pulse).withResponsesOff s.port respM respP) := by
  have answered {u : State} {r : Response} (hp : u.port = s.port)
      (ho : ExecOutcome i ((s.withUnits px written crc pix pulse).withResponses respM respP)
        (((u.withUnits px written crc pix pulse).withResponses respM respP).respond r)) :
      ExecOutcome i ((s.withUnits px written crc pix pulse).withResponses respM respP)
        (((u.respond r).withUnits px written crc pix pulse).withResponsesOff s.port respM respP) := by
    rw [← withResponsesOff_respond (u := u.withUnits px written crc pix pulse) hp] at ho
    exact ho
  have ready : Ready i.owner s → Ready i.owner ((s.withUnits px written crc pix pulse).withResponses respM respP) :=
    fun h => ⟨h.valid, h.live, h.onPort⟩
  cases h with
  | halted hv hf => exact answered rfl (.halted hv hf)
  | otherPort hv hf hp => exact answered rfl (.otherPort hv hf hp)
  | deqEmpty h hi he => exact answered rfl (.deqEmpty (ready h) hi he)
  | deq h hi he => exact answered rfl (.deq (ready h) hi he)
  | qlen h hi => exact answered rfl (.qlen (ready h) hi)
  | enqFull h b hi he => exact answered rfl (.enqFull (ready h) b hi he)
  | enq h b hi he => exact answered rfl (.enq (ready h) b hi he)
  | pixRange _ idx hi => rcases hi with rfl | rfl <;> simp at hq
  | loaded _ v hi => rcases hi with ⟨_, _, _, rfl, _⟩ | ⟨_, _, _, rfl, _⟩ <;> simp at hq
  | filled _ k hi => rcases hi with rfl | ⟨rfl, _⟩ <;> simp at hq
  | crc _ v hi => rcases hi with ⟨rfl, _⟩ | ⟨b, rfl, _⟩ | ⟨rfl, _⟩ <;> simp at hq
  | fillRange _ _ hi | pulseRange _ _ hi | pixwr _ _ hi | pixrd _ _ hi | pulrd _ _ hi => simp [hi] at hq

end Sys2Proof.Machine

open Sys2Proof Sys2Proof.Machine Sys2Proof.Safety

/-- Settles O49 (10_state.md R41), from the outcomes of a step. -/
theorem stepKeepsInvariant : Obligations.StepKeepsInvariant := by
  intro s t hi h
  exact (step_outcome h).keepsInv hi

/-- Settles O40 (10_state.md R27): a pointer that moves does not come back to where it was, since it runs modulo `2*QCAP`. -/
theorem flagSaysByteMoved : Obligations.FlagSaysByteMoved := by
  intro i s t r hi h hr
  have hqwr := nextPointer_ne hi.qwr_lt
  have hqrd := nextPointer_ne hi.qrd_lt
  rcases (exec_outcome h).flag_cases hr with ⟨hf, ew, er⟩ | ⟨hf, hb, ew, er⟩ | ⟨hf, hd, ew, er⟩
  · simp [hf, ew, er]
  · simp [hf, ew, er, hqwr, hb]
  · simp [hf, ew, er, hqrd, hd]

/-- Settles O43 (10_state.md R34, R28). -/
theorem writeSetsAreComplete : Obligations.WriteSetsAreComplete := by
  intro i s t h
  have ho := exec_outcome h
  refine ⟨ho.onlyWrites, ho.keepsOutside, ?_⟩
  rcases ho.fault_cases with e | ⟨hf, c, e⟩
  · exact .inl e
  · rw [e]; exact .inr ⟨hf, c.code_bounds⟩

/-- Settles O44 (10_state.md R34, 60_exceptions.md R215). -/
theorem portsKeepToTheirState : Obligations.PortsKeepToTheirState :=
  ⟨fun _ _ _ hc h => (step_outcome h).onlyWrites_of_command hc,
    fun _ _ _ hc h => (step_outcome h).onlyWrites_of_command hc⟩

/-- Settles O45 (10_state.md R34, R27), from the outcomes of the other run. -/
theorem unitsLearnNothingOfEachOther : Obligations.UnitsLearnNothingOfEachOther :=
  ⟨fun _ _ _ qwr qrd qmem respM respP hdeq hlen henq h =>
      ⟨_, ((exec_outcome h).withQueue hdeq hlen henq qwr qrd qmem respM respP).exec_eq, rfl⟩,
    fun _ _ _ px written crc pix pulse respM respP hq h =>
      ⟨_, ((exec_outcome h).withUnits hq px written crc pix pulse respM respP).exec_eq, rfl⟩⟩

/-- Settles O31 (log entry 10). -/
theorem idleStepChangesNothing : Obligations.IdleStepChangesNothing := by
  intro s hv hn
  rw [step_valid hv, takeInput, hn]
  rfl

/-- Settles O35 (10_state.md R40, 00_scope.md R5). -/
theorem resetStateHoldsTheSpecsValues : Obligations.ResetStateHoldsTheSpecsValues :=
  ⟨rfl, rfl, rfl, rfl, rfl, fun _ => ⟨rfl, rfl, rfl⟩, rfl, rfl, content_resetBlock State.reset⟩

/-- Settles O48 (10_state.md R41): the state after reset is what reset makes of it. -/
theorem invariantHoldsAtReset : Obligations.InvariantHoldsAtReset :=
  inv_resetBlock (s := State.reset) (by decide)
end

section
/-! PROOFS. The memory and the order of operations (20_memory.md): every operation completes (R63), which operations may be
repeated (R56) and reordered (R59), and that accepted bytes leave in order (R60, R61). -/

namespace Sys2Proof.Machine

open Sys2Proof.Safety

/-! ## Every operation completes -/

/-- An operation that is performed, or that finds its operand out of range, answers a next state. -/
theorem exec_completes_of_ready {i : Instr} {s : State} (h : Ready i.owner s) : ∃ t, exec i s = .next t := by
  cases i with
  | hsv2rgb hue sat val => exact ⟨_, exec_hsv2rgb h hue sat val⟩
  | pxset r g b => exact ⟨_, exec_pxset h r g b⟩
  | pixwr idx => rw [exec_pixwr h]; split <;> exact ⟨_, rfl⟩
  | pixrd idx => rw [exec_pixrd h]; split <;> exact ⟨_, rfl⟩
  | fillall => exact ⟨_, exec_fillall h⟩
  | filln k => rw [exec_filln h]; split <;> exact ⟨_, rfl⟩
  | pulrd idx => rw [exec_pulrd h]; split <;> exact ⟨_, rfl⟩
  | crcinit => exact ⟨_, exec_crcinit h⟩
  | crcupd b => exact ⟨_, exec_crcupd h b⟩
  | crcrd => exact ⟨_, exec_crcrd h⟩
  | qdeq => rw [exec_qdeq h]; split <;> exact ⟨_, rfl⟩
  | qlen => exact ⟨_, exec_qlen h⟩
  | qenq b => exact ⟨_, exec_qenq h b⟩

theorem exec_completes (i : Instr) {s : State} (hv : parametersValid s.cfg = true) : ∃ t, exec i s = .next t := by
  by_cases hf : s.fault = 0
  · by_cases hp : s.port = i.owner
    · exact exec_completes_of_ready ⟨hv, hf, hp⟩
    · exact ⟨_, (ExecOutcome.otherPort hv hf hp).exec_eq⟩
  · exact ⟨_, (ExecOutcome.halted hv hf).exec_eq⟩

theorem rejectWord_completes (why : DecodeReject) {s : State} (hv : parametersValid s.cfg = true) :
    ∃ t, rejectWord why s = .next t := by
  rcases rejectWord_cases why hv with ⟨_, e⟩ | ⟨_, e⟩
  · exact ⟨_, e⟩
  · exact ⟨_, e⟩

theorem present_completes (p : Port) (w : Word) {s : State} (hv : parametersValid s.cfg = true) :
    ∃ t, present p w s = .next t := by
  unfold present
  split
  · exact exec_completes _ hv
  · exact rejectWord_completes _ hv

theorem takeInput_cfg (s : State) : (takeInput s).2.cfg = s.cfg := by
  obtain ⟨l, n, e⟩ := takeInput_state s
  rw [e]; rfl

theorem step_completes {s : State} (hv : parametersValid s.cfg = true) : ∃ t, step s = .next t := by
  rw [step_valid hv]
  unfold performTaken
  split
  · exact ⟨_, rfl⟩
  · exact ⟨_, rfl⟩
  · exact present_completes _ _ (by rw [takeInput_cfg]; exact hv)

theorem step_invalid {s : State} (hv : parametersValid s.cfg = false) : step s = .refused .parametersOutsideR6 :=
  if_neg (by simp [hv])

/-! ## Two commands in the same clock period -/

theorem step_congr {s s' : State} (hc : s.cfg = s'.cfg) (ht : takeInput s = takeInput s') : step s = step s' := by
  rw [step, step, withParameters, withParameters, hc, ht]

theorem takeInput_pair {s : State} {onM onP : Word} {rest : List Input} (h : s.inbox = .pair onM onP :: rest) :
    takeInput s =
      if Config.portPFirst s.draws then
        (.command .P onP, (s.setInbox (.command .M onM :: rest)).setDraws (s.draws + 1))
      else (.command .M onM, (s.setInbox (.command .P onP :: rest)).setDraws (s.draws + 1)) := by
  rw [takeInput, h]

/-! ## Operations that may be repeated -/

theorem ExecOutcome.valid {i : Instr} {s t : State} (h : ExecOutcome i s t) : parametersValid s.cfg = true := by
  by_contra hv
  obtain ⟨k, hk⟩ := exec_eq_onOwnPort i
  have he := h.exec_eq
  rw [hk, onOwnPort, unlessHalted, withParameters, if_neg hv] at he
  cases he

/-- A live block that is still live afterwards took the command from the port that owns it. -/
theorem ExecOutcome.ready_of_live {i : Instr} {s t : State} (h : ExecOutcome i s t) (hs : s.fault = 0)
    (ht : t.fault = 0) : Ready i.owner s := by
  refine ⟨h.valid, hs, ?_⟩
  by_contra hp
  have he := h.exec_eq
  rw [(ExecOutcome.otherPort h.valid hs hp).exec_eq] at he
  cases he
  exact absurd ht (by simp)

theorem ExecOutcome.ready_after {i : Instr} {p : Port} {s t : State} (ho : ExecOutcome i s t) (h : Ready p s)
    (ht : t.fault = 0) : Ready p t :=
  ⟨by rw [ho.keepsOutside.cfg]; exact h.valid, ht, by rw [ho.keepsOutside.port]; exact h.onPort⟩

/-- Where no fault was raised the operand was in its range. -/
theorem inRange_of_live {outside : Prop} [Decidable outside] {c : Cause} {s t : State} {otherwise : Result}
    (h : (if outside then raise c s else otherwise) = .next t) (ht : t.fault = 0) : ¬ outside := by
  intro ho
  rw [if_pos ho] at h
  cases h
  exact absurd ht (by cases c <;> simp [Cause.code])

/-- The same response given again takes its own place. -/
theorem respond_respond (s : State) (r : Response) : (s.respond r).respond r = s.respond r := by
  cases hp : s.port <;> simp [State.respond, hp]

/-- The same elements written again take their own places, whatever the form of the list. -/
theorem Memory.write_write {width : Nat} (m : Memory width) (i : Nat) (vs : List (BitVec width)) :
    (m.write i vs).write i vs = m.write i vs := by
  have below : (elementsFrom i vs).filter (fun e => decide (e.1 < i)) = [] := by
    refine List.filter_eq_nil_iff.mpr fun e he => ?_
    have := Memory.mem_elementsFrom_bounds he
    rw [decide_eq_true_eq]
    omega
  have above : (elementsFrom i vs).filter (fun e => decide (i + vs.length ≤ e.1)) = [] := by
    refine List.filter_eq_nil_iff.mpr fun e he => ?_
    have := Memory.mem_elementsFrom_bounds he
    rw [decide_eq_true_eq]
    omega
  have disjoint (e : Nat × BitVec width) : ¬ (e.1 < i ∧ i + vs.length ≤ e.1) := by omega
  have disjoint' (e : Nat × BitVec width) : ¬ (i + vs.length ≤ e.1 ∧ e.1 < i) := by omega
  unfold Memory.write
  simp only [List.filter_append, List.filter_filter, below, above]
  simp [← Bool.decide_and, disjoint, disjoint']

/-- A run of stored elements uses no free value. -/
theorem storedOrDrawRun_used {width : Nat} {m : Memory width} {i n : Nat} (free : Nat → BitVec width) (used : Nat)
    (hm : ∀ a, a < n → ∃ v, m.read (i + a) = some v) : (storedOrDrawRun m free i n used).2 = used := by
  induction n generalizing i used with
  | zero => rfl
  | succ n ih =>
    obtain ⟨v, hv⟩ := hm 0 (Nat.succ_pos n)
    have hrest : ∀ a, a < n → ∃ v, m.read (i + 1 + a) = some v := fun a ha => by
      obtain ⟨v, hv⟩ := hm (a + 1) (Nat.succ_lt_succ ha)
      exact ⟨v, by rw [← hv]; congr 1; omega⟩
    rw [Nat.add_zero] at hv
    simp only [storedOrDrawRun, hv, storedOrDraw_some]
    exact ih used hrest

theorem readPixRun_written {s : State} {k : Nat} (h : ∀ a, a < k → ∃ v, s.pix.read a = some v) :
    (readPixRun 0 k s).2 = s := by
  have hused := storedOrDrawRun_used Config.unwrittenPix s.draws (i := 0) (by simpa only [Nat.zero_add] using h)
  rw [readPixRun_snd, hused]; rfl

theorem readPx_written {s : State} (h : s.pxWritten = true) : readPx s = (s.px, s) := by
  rw [readPx, storedPx_written h]; rfl

theorem readPulse_written {s : State} {idx : Nat} {v : Desc} (h : s.pulse.read idx = some v) :
    readPulse idx s = (v, s) := by
  rw [readPulse, h]; rfl

theorem storePx_written {s : State} {idx : Nat} (h : s.pxWritten = true) :
    storePx idx s = performed plainFlag 0 (s.writePix idx [s.px]) := by
  rw [storePx, readPx_written h]

theorem fill_written {s : State} {k : Nat} (h : ∀ a, a < k → ∃ v, s.pix.read a = some v) :
    fill k s = performed plainFlag (BitVec.ofNat 32 (24 * k))
      (s.writePulse 0 (fillImage s.cfg (readPixRun 0 k s).1)) := by
  rw [fill, readPixRun_written h]

theorem writePix_writePix (s : State) (i : Nat) (vs : List Pixel) : (s.writePix i vs).writePix i vs = s.writePix i vs :=
  congrArg (fun m => { s with pix := m }) (Memory.write_write s.pix i vs)

theorem writePulse_writePulse (s : State) (i : Nat) (vs : List Desc) :
    (s.writePulse i vs).writePulse i vs = s.writePulse i vs :=
  congrArg (fun m => { s with pulse := m }) (Memory.write_write s.pulse i vs)

/-- A write that takes its own place, and its answer, leave the same state when done again. -/
theorem performed_again {f : State → State} {flag : Bool} {data : Word} {s t : State}
    (hr : ∀ u r, f (u.respond r) = (f u).respond r) (hf : f (f s) = f s) (h : performed flag data (f s) = .next t) :
    performed flag data (f t) = .next t := by
  obtain rfl : (f s).respond _ = t := Host.Outcome.next.inj h
  rw [performed, hr, hf, respond_respond]

section Again

variable {s t : State}

theorem loadPx_again {v : Pixel} (h : loadPx v s = .next t) : loadPx v t = .next t :=
  performed_again (f := (·.setPx v)) (fun _ _ => rfl) rfl h

theorem answerCrc_setCrc_again {v : BitVec 16} (h : answerCrc (s.setCrc v) = .next t) :
    answerCrc (t.setCrc v) = .next t :=
  performed_again (f := (·.setCrc v)) (fun _ _ => rfl) rfl h

theorem answerCrc_again (h : answerCrc s = .next t) : answerCrc t = .next t := by
  have hcrc : t.crc = s.crc := by cases h; rfl
  rw [answerCrc, hcrc]
  exact performed_again (f := id) (fun _ _ => rfl) rfl h

theorem answerLength_again (h : performed plainFlag (BitVec.ofNat 32 (occupancy s)) s = .next t) :
    performed plainFlag (BitVec.ofNat 32 (occupancy t)) t = .next t := by
  have hlen : occupancy t = occupancy s := by cases h; rfl
  rw [hlen]
  exact performed_again (f := id) (fun _ _ => rfl) rfl h

theorem answerPulse_again {idx : Nat} {v : Desc} (hv : s.pulse.read idx = some v)
    (h : performed plainFlag (readPulse idx s).1 (readPulse idx s).2 = .next t) :
    performed plainFlag (readPulse idx t).1 (readPulse idx t).2 = .next t := by
  rw [readPulse_written hv] at h
  have hv' : t.pulse.read idx = some v := by cases h; exact hv
  rw [readPulse_written hv']
  exact performed_again (f := id) (fun _ _ => rfl) rfl h

theorem storePx_again {idx : Nat} (hw : s.pxWritten = true) (h : storePx idx s = .next t) : storePx idx t = .next t := by
  rw [storePx_written hw] at h
  have hpx : t.px = s.px := by cases h; rfl
  have hw' : t.pxWritten = true := by cases h; exact hw
  rw [storePx_written hw', hpx]
  exact performed_again (f := (·.writePix idx [s.px])) (fun _ _ => rfl) (writePix_writePix ..) h

theorem fill_again {k : Nat} (hp : ∀ a, a < k → ∃ v, s.pix.read a = some v) (h : fill k s = .next t) :
    fill k t = .next t := by
  rw [fill_written hp] at h
  have hp' : ∀ a, a < k → ∃ v, t.pix.read a = some v := by cases h; exact hp
  have himage : fillImage t.cfg (readPixRun 0 k t).1 = fillImage s.cfg (readPixRun 0 k s).1 := by cases h; rfl
  rw [fill_written hp', himage]
  exact performed_again (f := (·.writePulse 0 _)) (fun _ _ => rfl) (writePulse_writePulse ..) h

end Again

/-! ## QENQ and the other units -/

/-- Storing a byte if the queue is not full (44_bytequeue.md R181). -/
def enqueue (b : Byte) (s : State) : State := if queueFull s then s else pushByte b s

/-- What `QENQ` on port P leaves, but for the port: the queue with the byte stored, and the answer. -/
def afterQenq (b : Byte) (s : State) : State :=
  (s.withQueue (enqueue b s).qwr s.qrd (enqueue b s).qmem).withResponses s.respM
    (some (performedResponse (acceptedFlag s) 0))

theorem exec_qenq_onPortP {s : State} (hv : parametersValid s.cfg = true) (hf : s.fault = 0) (b : Byte) :
    exec (.qenq b) (s.setPort .P) = .next ((afterQenq b s).setPort .P) := by
  have hr : Ready .P (s.setPort .P) := ⟨hv, hf, rfl⟩
  have hfull : queueFull (s.setPort .P) = queueFull s := rfl
  rw [exec_qenq hr, afterQenq, acceptedFlag, acceptedFlag, hfull, enqueue]
  cases queueFull s <;> rfl

theorem setPort_back {s : State} {p : Port} (h : s.port = p) (p' : Port) : (s.setPort p').setPort p = s := by
  subst h; rfl

/-- The same queue and parameters. -/
structure SameQueue (s u : State) : Prop where
  cfg : u.cfg = s.cfg
  qwr : u.qwr = s.qwr
  qrd : u.qrd = s.qrd
  qmem : u.qmem = s.qmem

theorem ExecOutcome.sameQueue {i : Instr} {s t : State} (h : ExecOutcome i s t) (hdeq : i ≠ .qdeq)
    (henq : ∀ b, i ≠ .qenq b) : SameQueue s t := by
  cases h with
  | deq _ hi => exact absurd hi hdeq
  | enq _ b hi => exact absurd hi (henq b)
  | _ => exact ⟨rfl, rfl, rfl, rfl⟩

section SameQueue

variable {s u : State} (h : SameQueue s u)
include h

theorem SameQueue.queueFull_eq : queueFull u = queueFull s := by
  rw [queueFull, queueFull, occupancy_congr h.qwr h.qrd h.cfg, h.cfg]

theorem SameQueue.acceptedFlag_eq : acceptedFlag u = acceptedFlag s := by
  rw [acceptedFlag, acceptedFlag, h.queueFull_eq]

theorem SameQueue.enqueue (b : Byte) : SameQueue (enqueue b s) (enqueue b u) := by
  rw [Machine.enqueue, Machine.enqueue, h.queueFull_eq]
  split
  · exact h
  · exact ⟨h.cfg, by simp [pushByte, h.qwr, h.cfg], h.qrd, by simp [pushByte, h.qwr, h.cfg, h.qmem]⟩

end SameQueue

/-- What `QENQ` leaves in the place of the state before an operation of another unit, and of the state after it. -/
theorem ExecOutcome.afterQenq {i : Instr} {s u : State} (h : ExecOutcome i (s.setPort .M) u) (hdeq : i ≠ .qdeq)
    (hlen : i ≠ .qlen) (henq : ∀ b, i ≠ .qenq b) (b : Byte) :
    ExecOutcome i ((afterQenq b s).setPort .M) (afterQenq b u) := by
  have hsame : SameQueue s u := { h.sameQueue hdeq henq with }
  have hq := hsame.enqueue b
  rw [Machine.afterQenq, Machine.afterQenq, hq.qwr, hsame.qrd, hq.qmem, hsame.acceptedFlag_eq]
  exact h.withQueue hdeq hlen henq _ _ _ _ _

/-! ## Bytes leave in the order in which they were accepted -/

theorem content_respond (s : State) (r : Response) : content (s.respond r) = content s := content_congr rfl rfl rfl rfl

theorem content_setFault (s : State) (v : BitVec 4) : content (s.setFault v) = content s := content_congr rfl rfl rfl rfl

theorem content_presented (s : State) (l : List Input) (n : Nat) (p : Port) :
    content (((s.setInbox l).setDraws n).setPort p) = content s := content_congr rfl rfl rfl rfl

/-- A byte stored in a queue that is not full stands at the end of the content. -/
theorem content_pushByte {s : State} (hi : Inv s) (hn : occupancy s ≠ s.cfg.QCAP) (b : Byte) :
    content (pushByte b s) = content s ++ [b] := by
  obtain ⟨hocc, hold, hnew, _⟩ := pushByte_spec hi hn b
  have hcfg : (pushByte b s).cfg = s.cfg := rfl
  have hqrd : (pushByte b s).qrd = s.qrd := rfl
  rw [content, content, hcfg, hqrd, hocc, List.range_succ, List.filterMap_append,
    List.filterMap_congr fun j hj => hold j (List.mem_range.mp hj)]
  simp [hnew]

/-- The byte removed from a queue that is not empty stood at the head of the content. -/
theorem content_popByte {s : State} (hi : Inv s) (hn : s.qwr ≠ s.qrd) :
    content s = (popByte s).1 :: content (popByte s).2 := by
  obtain ⟨hhead, hocc, hplace, _⟩ := popByte_spec hi hn
  have hcfg : (popByte s).2.cfg = s.cfg := rfl
  have hqmem : (popByte s).2.qmem = s.qmem := rfl
  rw [content, content, hcfg, hqmem, hocc, List.range_succ_eq_map, List.filterMap_cons, Nat.add_zero, hhead,
    List.filterMap_map]
  simp [hplace]

theorem responseOn_respond {u : State} {p : Port} {r : Response} (hp : u.port = p) :
    responseOn p (u.respond r) = some r := by
  rw [← hp]; exact (answers_respond r rfl rfl rfl).own

/-- What an operation does to the queue's content, and what its answer says of it. -/
theorem ExecOutcome.content_cases {i : Instr} {s t : State} (h : ExecOutcome i s t) (hi : Inv s) :
    (∃ b, i = .qenq b ∧ s.port = .P ∧ content t = content s ++ [b] ∧
      responseOn s.port t = some (performedResponse true 0)) ∨
    (∃ b, i = .qdeq ∧ s.port = .M ∧ content s = b :: content t ∧
      responseOn s.port t = some (performedResponse true (zext32 b))) ∨
    (content t = content s ∧ ∃ r, responseOn s.port t = some r ∧ r.flag = false) := by
  cases h with
  | enq h b hb he => subst hb; exact .inl ⟨b, rfl, h.onPort, content_pushByte hi he b, responseOn_respond rfl⟩
  | deq h hd he => subst hd; exact .inr (.inl ⟨_, rfl, h.onPort, content_popByte hi he, responseOn_respond rfl⟩)
  | _ => exact .inr (.inr ⟨content_congr rfl rfl rfl rfl, _, responseOn_respond rfl, rfl⟩)

/-! ### The bytes one step accepts and returns -/

section BytesOfOneStep

variable {s t : State} (hs : step s = .next t)
include hs

/-- A byte is accepted by `QENQ` on port P alone, and only with the flag in the answer. -/
theorem acceptedByte_eq_nil
    (h : ∀ w, (takeInput s).1 = .command .P w → ∃ r, responseOn .P t = some r ∧ r.flag = false) :
    acceptedByte s = [] := by
  rw [acceptedByte, hs]
  split
  · rename_i w t' hw ht
    cases ht
    obtain ⟨r, hr, hf⟩ := h w hw
    have hr : t.respP = some r := hr
    split
    · refine if_neg fun hflag => ?_
      obtain rfl : r = ⟨0, true, 0⟩ := Option.some.inj (hr.symm.trans hflag)
      cases hf
    · rfl
  · rfl

theorem acceptedByte_eq_singleton {w : Word} {b : Byte} (hc : (takeInput s).1 = .command .P w)
    (hd : decode w = .ok (.qenq b)) (hr : responseOn .P t = some (performedResponse true 0)) :
    acceptedByte s = [b] := by
  simp only [acceptedByte, hc, hs, hd]
  exact if_pos hr

/-- A byte is returned by `QDEQ` on port M alone, and only with the flag in the answer. -/
theorem returnedByte_eq_nil
    (h : ∀ w, (takeInput s).1 = .command .M w → ∃ r, responseOn .M t = some r ∧ r.flag = false) :
    returnedByte s = [] := by
  rw [returnedByte, hs]
  split
  · rename_i w t' hw ht
    cases ht
    obtain ⟨r, hr, hf⟩ := h w hw
    have hr : t.respM = some r := hr
    rw [hr]
    split
    · rename_i r' _ e
      obtain rfl := Option.some.inj e
      exact if_neg (by simp [hf])
    · rfl
  · rfl

theorem returnedByte_eq_singleton {w : Word} {b : Byte} (hc : (takeInput s).1 = .command .M w)
    (hd : decode w = .ok .qdeq) (hr : responseOn .M t = some (performedResponse true (zext32 b))) :
    returnedByte s = [b] := by
  have hr : t.respM = some (performedResponse true (zext32 b)) := hr
  simp only [returnedByte, hc, hs, hd, hr]
  simp [performedResponse, zext32]

/-- A command answered without the flag neither accepts nor returns a byte. -/
theorem conserved_of_unflagged {p : Port} {w : Word} {r : Response} (hc : (takeInput s).1 = .command p w)
    (hq : content t = content s) (ha : responseOn p t = some r) (hf : r.flag = false) :
    content s ++ acceptedByte s = returnedByte s ++ content t := by
  have unflagged (p' : Port) (w' : Word) (hc' : (takeInput s).1 = .command p' w') :
      ∃ r, responseOn p' t = some r ∧ r.flag = false := by
    cases hc.symm.trans hc'
    exact ⟨r, ha, hf⟩
  rw [acceptedByte_eq_nil hs (unflagged .P), returnedByte_eq_nil hs (unflagged .M), hq, List.append_nil, List.nil_append]

end BytesOfOneStep

/-- The conservation law of one step (20_memory.md R60, R61). -/
theorem StepOutcome.content_conserved {s t : State} (h : StepOutcome s t) (hs : step s = .next t) (hi : Inv s)
    (hr : (takeInput s).1 ≠ .reset) : content s ++ acceptedByte s = returnedByte s ++ content t := by
  cases h with
  | nothing hc e =>
    rw [acceptedByte_eq_nil hs (by simp [hc]), returnedByte_eq_nil hs (by simp [hc]), e, List.append_nil,
      List.nil_append]
  | reset hc => exact absurd hc hr
  | performed p w l n hc i hd e =>
    rcases e.content_cases (hi.presented l n p) with ⟨b, rfl, rfl, hq, ha⟩ | ⟨b, rfl, rfl, hq, ha⟩ | ⟨hq, r, ha, hf⟩
    · rw [acceptedByte_eq_singleton hs hc hd ha, returnedByte_eq_nil hs (by simp [hc]), hq, content_presented,
        List.nil_append]
    · rw [acceptedByte_eq_nil hs (by simp [hc]), returnedByte_eq_singleton hs hc hd ha,
        ← content_presented s l n .M, hq, List.append_nil]
      rfl
    · exact conserved_of_unflagged hs hc (hq.trans (content_presented s l n p)) ha hf
  | halted p w l n hc why hd _ e =>
    have hq : content t = content s := by rw [e, content_respond, content_presented]
    have ha : responseOn p t = some haltedResponse := by rw [e]; exact responseOn_respond rfl
    exact conserved_of_unflagged hs hc hq ha rfl
  | illegal p w l n hc why hd _ e =>
    have hq : content t = content s := by rw [e, content_respond, content_setFault, content_presented]
    have ha : responseOn p t = some (faultResponse .illegalOp) := by rw [e]; exact responseOn_respond rfl
    exact conserved_of_unflagged hs hc hq ha rfl

/-! ### Runs without reset -/

theorem takeInput_ne_reset {s : State} (h : NoReset s) : (takeInput s).1 ≠ .reset := by
  unfold takeInput
  split
  · simp
  · simp
  · split <;> simp
  · rename_i m p rest e
    exact absurd (e ▸ List.mem_cons_self) (h m p)

theorem noReset_takeInput {s : State} (h : NoReset s) : NoReset (takeInput s).2 := by
  intro m p
  have tail {x : Input} {rest : List Input} (e : s.inbox = x :: rest) : Input.reset m p ∉ rest :=
    fun hm => h m p (e ▸ List.mem_cons_of_mem x hm)
  unfold takeInput
  split
  · exact h m p
  · rename_i e; exact tail e
  · rename_i e; split <;> simpa using tail e
  · rename_i e; exact tail e

theorem present_inbox {p : Port} {w : Word} {s t : State} (hv : parametersValid s.cfg = true)
    (h : present p w s = .next t) : t.inbox = s.inbox := by
  unfold present at h
  split at h
  · exact (exec_outcome h).keepsOutside.inbox
  · rename_i why _
    rcases rejectWord_cases why (s := s.setPort p) hv with ⟨_, e⟩ | ⟨_, e⟩
    · rw [e] at h; cases h; rfl
    · rw [e] at h; cases h; rfl

/-- What a step leaves for the next ones is what it did not take. -/
theorem step_inbox {s t : State} (h : step s = .next t) : t.inbox = (takeInput s).2.inbox := by
  have hv := valid_of_step h
  rw [step_valid hv] at h
  unfold performTaken at h
  split at h
  · cases h; rfl
  · cases h; rfl
  · exact present_inbox (by rw [takeInput_cfg]; exact hv) h

theorem noReset_step {s t : State} (h : step s = .next t) (hn : NoReset s) : NoReset t := by
  unfold NoReset
  rw [step_inbox h]
  exact noReset_takeInput hn

theorem run_succ_next {M : Host.Core} {n : Nat} {s t : M.State} (h : M.run (n + 1) s = .next t) :
    ∃ u, M.step s = .next u ∧ M.run n u = .next t := by
  rw [Host.Core.run] at h
  split at h
  · rename_i u hs
    exact ⟨u, hs, h⟩
  · cases h
  · cases h

theorem collected_succ (f : State → List Byte) (n : Nat) {s u : State} (h : step s = .next u) :
    collected f (n + 1) s = f s ++ collected f n u := by
  rw [collected, h]

/-- The conservation law of a run: step by step, from the law of one step. -/
theorem run_content_conserved (n : Nat) {s t : State} (hi : Inv s) (hn : NoReset s)
    (h : Sys2Proof.core.run n s = .next t) :
    content s ++ collected acceptedByte n s = collected returnedByte n s ++ content t := by
  induction n generalizing s with
  | zero =>
    obtain rfl : s = t := Host.Outcome.next.inj h
    simp [collected]
  | succ n ih =>
    obtain ⟨u, hs, hrun⟩ : ∃ u, step s = .next u ∧ Sys2Proof.core.run n u = .next t := run_succ_next h
    have ho := step_outcome hs
    rw [collected_succ _ n hs, collected_succ _ n hs]
    calc content s ++ (acceptedByte s ++ collected acceptedByte n u)
        = (content s ++ acceptedByte s) ++ collected acceptedByte n u := (List.append_assoc ..).symm
      _ = returnedByte s ++ (content u ++ collected acceptedByte n u) := by
          rw [ho.content_conserved hs hi (takeInput_ne_reset hn), List.append_assoc]
      _ = (returnedByte s ++ collected returnedByte n u) ++ content t := by
          rw [ih (ho.keepsInv hi) (noReset_step hs hn) hrun, List.append_assoc]

end Sys2Proof.Machine

open Sys2Proof Sys2Proof.Machine Sys2Proof.Safety

/-- Settles O41 (20_memory.md R63), instruction by instruction behind the shared checks. -/
theorem everyOperationCompletes : Obligations.EveryOperationCompletes :=
  ⟨fun i _ hv => exec_completes i hv, fun _ hv => step_completes hv, fun _ hv => step_invalid hv⟩

/-- Settles O32 (20_memory.md R59): both sides take the same command and leave the other first in line. -/
theorem simultaneousPairIsSerial : Obligations.SimultaneousPairIsSerial := by
  intro s onM onP rest h
  have hp := takeInput_pair h
  split at hp
  · exact .inl (step_congr rfl hp)
  · exact .inr (step_congr rfl hp)

/-- Settles O46 (20_memory.md R56): what is written again takes its own place, and what was written is read without a draw. -/
theorem repeatableOperationsAreIdempotent : Obligations.RepeatableOperationsAreIdempotent := by
  intro i s t h hs ht hi
  have ho := exec_outcome h
  have hr := ho.ready_of_live hs ht
  have hr' := ho.ready_after hr ht
  have hN : t.cfg.N = s.cfg.N := by rw [ho.keepsOutside.cfg]
  rcases hi with ⟨r, g, b, rfl⟩ | rfl | rfl | rfl | ⟨idx, rfl, hw⟩ | ⟨idx, v, rfl, hv⟩ | ⟨k, rfl | ⟨rfl, rfl⟩, hp⟩
  · rw [exec_pxset hr] at h
    rw [exec_pxset hr']
    exact loadPx_again h
  · rw [exec_crcinit hr] at h
    rw [exec_crcinit hr']
    exact answerCrc_setCrc_again h
  · rw [exec_crcrd hr] at h
    rw [exec_crcrd hr']
    exact answerCrc_again h
  · rw [exec_qlen hr] at h
    rw [exec_qlen hr']
    exact answerLength_again h
  · rw [exec_pixwr hr] at h
    have hidx := inRange_of_live h ht
    rw [if_neg hidx] at h
    rw [exec_pixwr hr', hN, if_neg hidx]
    exact storePx_again hw h
  · rw [exec_pulrd hr] at h
    have hidx := inRange_of_live h ht
    rw [if_neg hidx] at h
    rw [exec_pulrd hr', hN, if_neg hidx]
    exact answerPulse_again hv h
  · rw [exec_filln hr] at h
    have hk := inRange_of_live h ht
    rw [if_neg hk] at h
    rw [exec_filln hr', hN, if_neg hk]
    exact fill_again hp h
  · rw [exec_fillall hr] at h
    rw [exec_fillall hr', hN]
    exact fill_again hp h

/-- Settles O33 (20_memory.md R59): the other unit's operation does not see the queue, and `QENQ` sees nothing else. -/
theorem enqueueCommutesWithOtherUnits : Obligations.EnqueueCommutesWithOtherUnits := by
  intro i b s u t hdeq hlen henq hi hu hq
  have ho := exec_outcome hi
  have hs : s.fault = 0 := by
    rcases ho.fault_cases with e | ⟨hs, _⟩
    · exact e.symm.trans hu
    · exact hs
  have hv : parametersValid s.cfg = true := ho.valid
  have hvu : parametersValid u.cfg = true := by rw [ho.keepsOutside.cfg]; exact hv
  rw [exec_qenq_onPortP hvu hu b] at hq
  cases hq
  refine ⟨_, exec_qenq_onPortP hv hs b, ?_⟩
  rw [setPort_back (s := afterQenq b u) (p := .M) ho.keepsOutside.port]
  exact (ho.afterQenq hdeq hlen henq b).exec_eq

/-- Settles O29 (20_memory.md R60, R61), by induction on the number of steps. -/
theorem acceptedBytesLeaveInOrder : Obligations.AcceptedBytesLeaveInOrder := by
  intro n s t hi hn h
  exact run_content_conserved n hi hn h
end

section
/-! PROOFS. The encoding (30_encoding.md): the decoder and the encoder undo each other (R84, R85, R87), the opcode map decides
which words are an operation (R86), which words are none and why (R82, R87), the response and its port (R83), and what a step
does with a command word (R82). -/

namespace Sys2Proof

open Sys2Proof.Laws

/-! ## The fields of a word -/

section Fields

variable {w : Word} {f : Format} {lo len n x : Nat}

theorem reservedFrom_le (f : Format) : reservedFrom f ≤ 28 := by cases f <;> decide

/-- Two fields side by side are one. -/
theorem field_append (w : Word) (lo m n : Nat) : field w (lo + m) n * 2 ^ m + field w lo m = field w lo (m + n) := by
  simp only [field]
  rw [Nat.pow_add, Nat.pow_add, Nat.mod_mul, Nat.div_div_eq_div_mul, Nat.mul_comm, Nat.add_comm]

/-- A word is its operation code and the 28 bits below it (30_encoding.md R80). -/
theorem toNat_eq_op_operands (w : Word) : w.toNat = opField w * 2 ^ 28 + field w 0 28 := by
  rw [opField_eq, field]
  omega

/-- A field inside the low bits is a field of their number. -/
theorem field_of_lowBits (h : field w 0 n = x) (hn : lo + len ≤ n) : field w lo len = x / 2 ^ lo % 2 ^ len := by
  have hsplit : 2 ^ n = 2 ^ lo * (2 ^ len * 2 ^ (n - lo - len)) := by
    rw [← Nat.pow_add, ← Nat.pow_add]
    congr 1
    omega
  rw [field, Nat.pow_zero, Nat.div_one] at h
  rw [← h, hsplit, Nat.mod_mul_right_div_self, Nat.mod_mul_right_mod, field]

/-- The low 28 bits are the reserved bits of a format and the operand bits below them. -/
theorem lowBits_eq (w : Word) (f : Format) :
    field w 0 28 = field w (reservedFrom f) (28 - reservedFrom f) * 2 ^ reservedFrom f + field w 0 (reservedFrom f) := by
  have h := field_append w 0 (reservedFrom f) (28 - reservedFrom f)
  rw [Nat.zero_add, Nat.add_sub_cancel' (reservedFrom_le f)] at h
  exact h.symm

/-- With the reserved bits clear the low 28 bits are the operand bits. -/
theorem lowBits_of_reservedClear (h : reservedClear f w = true) : field w 0 28 = field w 0 (reservedFrom f) := by
  rw [reservedClear, beq_iff_eq] at h
  rw [lowBits_eq w f, h, Nat.zero_mul, Nat.zero_add]

/-- Where the low 28 bits are a number of operand bits only, the reserved bits are clear. -/
theorem reservedClear_of_lowBits (h : field w 0 28 < 2 ^ reservedFrom f) : reservedClear f w = true := by
  rw [lowBits_eq w f] at h
  rw [reservedClear, beq_iff_eq]
  by_contra hne
  have := Nat.le_mul_of_pos_left (2 ^ reservedFrom f) (Nat.pos_of_ne_zero hne)
  omega

end Fields

/-! ## The rows of the opcode map -/

section Rows

variable {w : Word} {op : Nat} {f : Format} {i j : Instr}

theorem Instr.op_lt (i : Instr) : i.op < 16 := by
  cases i <;> simp only [Instr.op, Nat.reduceLT]

/-- The row of a word under a code: the code and the format are those of its instruction. -/
theorem op_format_of_rowOf (h : rowOf w op = some (f, i)) : i.op = op ∧ i.format = f := by
  unfold rowOf at h
  split at h <;> cases h <;> exact ⟨rfl, rfl⟩

/-- Under the code of an operation every word has a row. -/
theorem rowOf_op (w : Word) (i : Instr) : ∃ j, rowOf w i.op = some (i.format, j) := by
  cases i <;> exact ⟨_, rfl⟩

theorem format_eq_of_op_eq (h : i.op = j.op) : i.format = j.format := by
  obtain ⟨_, hi⟩ := rowOf_op 0 i
  obtain ⟨_, hj⟩ := rowOf_op 0 j
  rw [h, hj] at hi
  exact ((Prod.mk.inj (Option.some.inj hi)).1).symm

theorem rowOf_eq_none_iff (hop : op < 16) : rowOf w op = none ↔ op = 0x0 ∨ op = 0xE ∨ op = 0xF := by
  interval_cases op <;> simp [rowOf]

/-- Three operand fields, of `n`, 8 and 8 bits, as one number. -/
theorem threeFields_eq (w : Word) (n : Nat) :
    field w 16 n * 2 ^ 16 + field w 8 8 * 2 ^ 8 + field w 0 8 = field w 0 (16 + n) := by
  have lower := field_append w 0 8 8
  have all := field_append w 0 16 n
  rw [Nat.zero_add] at lower all
  rw [Nat.add_assoc, lower, all]

/-- The operands of a row are the bits below the reserved ones; case `h_k` is the row of operation code `k`. -/
theorem operandBits_of_rowOf (h : rowOf w op = some (f, i)) : i.operandBits = field w 0 (reservedFrom f) := by
  unfold rowOf at h
  split at h <;> cases h
  case h_1 => exact threeFields_eq w 12
  case h_2 =>
    have bytes (lo : Nat) : (byteField w lo).toNat = field w lo 8 := byteField_toNat w lo
    rw [Instr.operandBits, bytes, bytes, bytes]
    exact threeFields_eq w 8
  case h_3 | h_4 | h_6 | h_7 => rfl
  case h_9 | h_13 => exact byteField_toNat w 0
  all_goals exact (Nat.mod_one _).symm

/-- The operands of a row fit their fields; case `h_k` is the row of operation code `k`. -/
theorem wellFormed_of_rowOf (h : rowOf w op = some (f, i)) : i.wellFormed = true := by
  unfold rowOf at h
  split at h <;> cases h
  case h_1 =>
    simp only [Instr.wellFormed, Bool.and_eq_true, decide_eq_true_eq]
    exact ⟨⟨field_lt w 16 12, field_lt w 8 8⟩, field_lt w 0 8⟩
  case h_3 | h_4 | h_6 | h_7 => exact decide_eq_true (field_lt w 0 _)
  all_goals rfl

/-- The operands of a well-formed instruction do not reach the reserved bits of its format. -/
theorem operandBits_lt (h : i.wellFormed = true) : i.operandBits < 2 ^ reservedFrom i.format := by
  cases i with
  | hsv2rgb hue sat val =>
    simp only [Instr.wellFormed, Bool.and_eq_true, decide_eq_true_eq] at h
    simp only [Instr.operandBits, Instr.format, reservedFrom]
    omega
  | pxset r g b =>
    simp only [Instr.operandBits, Instr.format, reservedFrom]
    omega
  | pixwr | pixrd | filln | pulrd => exact of_decide_eq_true h
  | crcupd b | qenq b => exact b.isLt
  | fillall | crcinit | crcrd | qdeq | qlen => exact Nat.one_pos

/-- A byte-wide field that holds a byte's number is that byte. -/
theorem byteField_of_field {lo : Nat} {b : Byte} (h : field w lo 8 = b.toNat) : byteField w lo = b := by
  rw [byteField, h, BitVec.ofNat_toNat, BitVec.setWidth_eq]

/-- A word that holds the operands of an instruction has it in the row of its code. -/
theorem rowOf_of_operands (hw : i.wellFormed = true) (h : field w 0 28 = i.operandBits) :
    rowOf w i.op = some (i.format, i) := by
  have operand (lo len x : Nat) (hl : lo + len ≤ 28) (hx : i.operandBits / 2 ^ lo % 2 ^ len = x) :
      field w lo len = x := (field_of_lowBits h hl).trans hx
  cases i with
  | hsv2rgb hue sat val =>
    simp only [Instr.wellFormed, Bool.and_eq_true, decide_eq_true_eq] at hw
    have hhue := operand 16 12 hue (by decide) (by simp only [Instr.operandBits]; omega)
    have hsat := operand 8 8 sat (by decide) (by simp only [Instr.operandBits]; omega)
    have hval := operand 0 8 val (by decide) (by simp only [Instr.operandBits]; omega)
    rw [Instr.op, rowOf, hhue, hsat, hval, Instr.format]
  | pxset r g b =>
    have hr := operand 16 8 r.toNat (by decide) (by simp only [Instr.operandBits]; omega)
    have hg := operand 8 8 g.toNat (by decide) (by simp only [Instr.operandBits]; omega)
    have hb := operand 0 8 b.toNat (by decide) (by simp only [Instr.operandBits]; omega)
    rw [Instr.op, rowOf, byteField_of_field hr, byteField_of_field hg, byteField_of_field hb, Instr.format]
  | pixwr x | pixrd x | filln x =>
    have hlt : x < 4096 := of_decide_eq_true hw
    have hx := operand 0 12 x (by decide) (by simp only [Instr.operandBits]; omega)
    rw [Instr.op, rowOf, hx, Instr.format]
  | pulrd x =>
    have hlt : x < 65536 := of_decide_eq_true hw
    have hx := operand 0 16 x (by decide) (by simp only [Instr.operandBits]; omega)
    rw [Instr.op, rowOf, hx, Instr.format]
  | crcupd b | qenq b =>
    have hb := operand 0 8 b.toNat (by decide) (by simp only [Instr.operandBits]; omega)
    rw [Instr.op, rowOf, byteField_of_field hb, Instr.format]
  | fillall | crcinit | crcrd | qdeq | qlen => rfl

end Rows

/-! ## The decoder and the encoder -/

section Decoder

variable {w : Word} {i : Instr}

/-- A word decodes to an instruction exactly when it holds its code and its operands, all of them in their fields. -/
theorem decode_eq_ok_iff : decode w = .ok i ↔ i.wellFormed = true ∧ opField w = i.op ∧ field w 0 28 = i.operandBits := by
  constructor
  · intro h
    obtain ⟨f, hrow, hclear⟩ := row_of_decode h
    exact ⟨wellFormed_of_rowOf hrow, (op_format_of_rowOf hrow).1.symm,
      (lowBits_of_reservedClear hclear).trans (operandBits_of_rowOf hrow).symm⟩
  · rintro ⟨hw, hop, hbits⟩
    have hclear : reservedClear i.format w = true := reservedClear_of_lowBits (hbits ▸ operandBits_lt hw)
    rw [decode_of_row (hop ▸ rowOf_of_operands hw hbits), if_pos hclear]

/-- The encoder's word of a well-formed instruction is the one that holds its code and its operands. -/
theorem encode_eq_iff (hw : i.wellFormed = true) : encode i = w ↔ opField w = i.op ∧ field w 0 28 = i.operandBits := by
  have hop := i.op_lt
  have hbits : i.operandBits < 2 ^ 28 :=
    Nat.lt_of_lt_of_le (operandBits_lt hw) (Nat.pow_le_pow_right Nat.two_pos (reservedFrom_le i.format))
  have hfield : field w 0 28 < 2 ^ 28 := field_lt w 0 28
  rw [← BitVec.toNat_inj, encode_toNat, toNat_eq_op_operands w]
  omega

/-- A word is of an operation exactly when it has its code, and the reserved bits of its format are clear. -/
theorem decodesToOp_iff (row : Instr) :
    (∃ i, decode w = .ok i ∧ i.op = row.op) ↔ opField w = row.op ∧ reservedClear row.format w = true := by
  constructor
  · rintro ⟨i, hd, hop⟩
    obtain ⟨f, hrow, hclear⟩ := row_of_decode hd
    obtain ⟨hi, rfl⟩ := op_format_of_rowOf hrow
    rw [format_eq_of_op_eq hop] at hclear
    exact ⟨hi.symm.trans hop, hclear⟩
  · rintro ⟨hop, hclear⟩
    obtain ⟨i, hrow⟩ := rowOf_op w row
    refine ⟨i, ?_, (op_format_of_rowOf hrow).1⟩
    rw [decode_of_row (hop ▸ hrow), if_pos hclear]

end Decoder

/-! ## Match and mask -/

theorem maskWord_eq (i : Instr) : i.maskWord = BitVec.ofNat 32 (2 ^ 32 - 2 ^ reservedFrom i.format) := by
  cases i <;> simp only [Instr.maskWord, Instr.format, reservedFrom] <;> decide

theorem matchWord_eq (i : Instr) : i.matchWord = BitVec.ofNat 32 (i.op * 2 ^ 28) := by
  cases i <;> simp only [Instr.matchWord, Instr.op] <;> decide

/-- The mask keeps the operation code and the reserved bits, and the match has the code and no reserved bit. -/
theorem and_maskWord_iff (w : Word) (row : Instr) :
    w &&& row.maskWord = row.matchWord ↔ opField w = row.op ∧ reservedClear row.format w = true := by
  have hw := w.isLt
  have hop := row.op_lt
  have hmask := and_highMask w (reservedFrom row.format) ((reservedFrom_le _).trans (by decide))
  rw [maskWord_eq, matchWord_eq, hmask, ← BitVec.toNat_inj, BitVec.toNat_ofNat, BitVec.toNat_ofNat, opField_eq,
    reservedClear, beq_iff_eq, field]
  cases row.format <;> simp only [reservedFrom] <;> omega

/-! ## The words that are no operation -/

theorem reservedMask_op (i : Instr) :
    Safety.reservedMask i.op = BitVec.ofNat 32 (2 ^ 28 - 2 ^ reservedFrom i.format) := by
  cases i <;> simp only [Instr.op, Instr.format, reservedFrom] <;> decide

theorem decode_unassigned_iff (w : Word) :
    decode w = .error .unassignedOperation ↔ opField w = 0x0 ∨ opField w = 0xE ∨ opField w = 0xF := by
  have hop : opField w < 16 := field_lt w 28 4
  rw [← rowOf_eq_none_iff (w := w) hop]
  rcases decode_cases w with ⟨hrow, hd⟩ | ⟨f, i, hrow, ⟨_, hd⟩ | ⟨_, hd⟩⟩ <;> simp [hrow, hd]

theorem decode_reservedBit_iff (w : Word) :
    decode w = .error .reservedBit ↔
      ¬ (opField w = 0x0 ∨ opField w = 0xE ∨ opField w = 0xF) ∧ w &&& Safety.reservedMask (opField w) ≠ 0 := by
  rw [← decode_unassigned_iff w]
  rcases decode_cases w with ⟨_, hd⟩ | ⟨f, i, hrow, hrest⟩
  · simp [hd]
  · obtain ⟨hop, rfl⟩ := op_format_of_rowOf hrow
    rw [ne_eq, ← reservedClear_iff w _ i.format (hop ▸ reservedMask_op i)]
    rcases hrest with ⟨hclear, hd⟩ | ⟨hclear, hd⟩ <;> simp [hclear, hd]

end Sys2Proof

namespace Sys2Proof.Machine

open Sys2Proof.Safety

/-! ## Responses -/

theorem Response.bits_toNat (r : Response) :
    r.bits.toNat = r.fault.toNat * 2 ^ 33 + r.flag.toNat * 2 ^ 32 + r.data.toNat := by
  rw [Response.bits, BitVec.toNat_append, BitVec.toNat_append, ← Nat.shiftLeft_add_eq_or_of_lt r.data.isLt,
    ← Nat.shiftLeft_add_eq_or_of_lt (BitVec.isLt _), Nat.shiftLeft_eq, Nat.shiftLeft_eq, BitVec.toNat_ofBool]
  omega

/-- A response that a command may get: the code is one of the table's, and a fault has no flag and no data
(30_encoding.md R83). -/
structure Response.Legal (r : Response) : Prop where
  code_le : r.fault.toNat ≤ 6
  empty : r.fault ≠ 0 → r.flag = false ∧ r.data = 0

theorem legal_performedResponse (flag : Bool) (data : Word) : (performedResponse flag data).Legal :=
  ⟨Nat.zero_le 6, fun h => absurd rfl h⟩

theorem legal_faultResponse (c : Cause) : (faultResponse c).Legal :=
  ⟨c.code_bounds.2.trans (by decide), fun _ => ⟨rfl, rfl⟩⟩

theorem legal_haltedResponse : haltedResponse.Legal := ⟨by decide, fun _ => ⟨rfl, rfl⟩⟩

/-- Every instruction answers on the port of its command, and nothing it writes besides is a response. -/
theorem ExecOutcome.answers {i : Instr} {s t : State} (h : ExecOutcome i s t) : ∃ r, Answers s t r ∧ r.Legal := by
  cases h with
  | halted => exact ⟨_, answers_respond _ rfl rfl rfl, legal_haltedResponse⟩
  | otherPort | pixRange | fillRange | pulseRange =>
    exact ⟨_, answers_respond _ rfl rfl rfl, legal_faultResponse _⟩
  | _ => exact ⟨_, answers_respond _ rfl rfl rfl, legal_performedResponse _ _⟩

/-- A step that takes a command answers it: what the command finds has the responses of `s` and names its port. -/
theorem StepOutcome.answers_command {s t : State} {p : Port} {w : Word} (h : StepOutcome s t)
    (hc : (takeInput s).1 = .command p w) : ∃ r, Answers (s.setPort p) t r ∧ r.Legal := by
  cases h with
  | nothing h | reset h => rw [h] at hc; cases hc
  | performed p' w' l n h i _ e =>
    rw [h] at hc; cases hc
    obtain ⟨r, ha, hr⟩ := e.answers
    exact ⟨r, ⟨ha.own, ha.other⟩, hr⟩
  | halted p' w' l n h _ _ _ e =>
    rw [h] at hc; cases hc
    rw [e]; exact ⟨_, answers_respond _ rfl rfl rfl, legal_haltedResponse⟩
  | illegal p' w' l n h _ _ _ e =>
    rw [h] at hc; cases hc
    rw [e]; exact ⟨_, answers_respond _ rfl rfl rfl, legal_faultResponse _⟩

/-! ## A command that is the next input -/

theorem rejectWord_raises (why : DecodeReject) {s : State} (hv : parametersValid s.cfg = true) (hf : s.fault = 0) :
    ∃ t, rejectWord why s = .next t ∧ Raises .illegalOp s t := by
  rw [rejectWord, unlessHalted_live hv hf]
  exact raise_raises .illegalOp s

theorem rejectWord_findsHalted (why : DecodeReject) {s : State} (hv : parametersValid s.cfg = true)
    (hf : s.fault ≠ 0) : ∃ t, rejectWord why s = .next t ∧ FindsHalted s t :=
  ⟨_, unlessHalted_halted hv hf, respondHalted_findsHalted s⟩

theorem step_command {s : State} {p : Port} {w : Word} {rest : List Input} (hv : parametersValid s.cfg = true)
    (h : s.inbox = .command p w :: rest) : step s = present p w (s.setInbox rest) := by
  rw [step_valid hv, takeInput, h]; rfl

theorem present_of_ok {w : Word} {i : Instr} (h : decode w = .ok i) (p : Port) (s : State) :
    present p w s = exec i (s.setPort p) := by
  rw [present, h]

theorem present_of_error {w : Word} {why : DecodeReject} (h : decode w = .error why) (p : Port) (s : State) :
    present p w s = rejectWord why (s.setPort p) := by
  rw [present, h]

end Sys2Proof.Machine

open Sys2Proof Sys2Proof.Laws Sys2Proof.Machine Sys2Proof.Safety

/-- Settles O2 (30_encoding.md R84, R85): the encoder's word holds the code and the operands. -/
theorem decodeOfEncodeIsIdentity : Obligations.DecodeOfEncodeIsIdentity := by
  intro i hw
  exact decode_eq_ok_iff.mpr ⟨hw, (encode_eq_iff hw).mp rfl⟩

/-- Settles O3 (30_encoding.md R84, R87): a word that decodes holds the code and the operands, and nothing else. -/
theorem encodeOfDecodeIsIdentity : Obligations.EncodeOfDecodeIsIdentity := by
  intro w i h
  obtain ⟨hw, hword⟩ := decode_eq_ok_iff.mp h
  exact ⟨(encode_eq_iff hw).mpr hword, hw⟩

/-- Settles O4 (30_encoding.md R86): both sides say that the word has the row's code and no reserved bit. -/
theorem opcodeMapDecides : Obligations.OpcodeMapDecides := by
  intro w row
  exact (decodesToOp_iff row).trans (and_maskWord_iff w row).symm

/-- Settles O5 (30_encoding.md R82, R84, R87): the code is looked at first, then the reserved bits of its format. -/
theorem illegalWordsAreNamed : Obligations.IllegalWordsAreNamed := by
  intro w
  rw [← opField_eq, decode_unassigned_iff, decode_reservedBit_iff, not_or, not_or]
  exact ⟨Iff.rfl, Iff.rfl⟩

/-- Settles O39 (30_encoding.md R83), from the outcomes of a step. -/
theorem responseOnOwnPortOnly : Obligations.ResponseOnOwnPortOnly := by
  refine ⟨Response.bits_toNat, fun s t p w hc h => ?_⟩
  obtain ⟨r, ha, hr⟩ := (step_outcome h).answers_command hc
  exact ⟨ha.other, r, ha.own, hr.code_le, hr.empty⟩

/-- Settles O1 (30_encoding.md R84, R86, R87): each word written out is decoded. -/
theorem specWordsDecode : Obligations.SpecWordsDecode := by
  unfold Obligations.SpecWordsDecode
  repeat' apply And.intro
  all_goals rfl

/-- Settles O30 (30_encoding.md R82, 20_memory.md R58): the step presents the word, and the decoder decides what it does. -/
theorem stepRunsTheDecodedCommand : Obligations.StepRunsTheDecodedCommand := by
  intro s p w rest hv hin
  have hstep := step_command hv hin
  refine ⟨fun i hd => ?_, fun why hd hf => ?_, fun why hd hf => ?_⟩
  · rw [hstep, present_of_ok hd]; rfl
  · rw [hstep, present_of_error hd]
    exact rejectWord_raises (s := (s.setInbox rest).setPort p) why hv hf
  · rw [hstep, present_of_error hd]
    exact rejectWord_findsHalted (s := (s.setInbox rest).setPort p) why hv hf
end

section
/-! PROOFS. Unit HSV (41_colormath.md): the conversion's laws (R121), the operations HSV2RGB (R118) and PXSET (R119), and
that a pixel stored in PIX reads back. -/

namespace Sys2Proof.Machine

open Sys2Proof.Laws Sys2Proof.Safety

/-! ## What all operations share: their words, their common faults, one after another -/

/-- The words of a row whose operands are functions of the word's number. -/
theorem encodedAs_of_rowOf {op : Nat} {reserved : Word} {i : Nat → Instr} (f : Format)
    (hreserved : reserved = BitVec.ofNat 32 (2 ^ 28 - 2 ^ reservedFrom f))
    (hrow : ∀ w, rowOf w op = some (f, i w.toNat)) : EncodedAs op reserved i := by
  intro w hw
  rw [← opField_eq] at hw
  rw [decode_of_row (hw ▸ hrow w)]
  exact if_congr (reservedClear_iff w reserved f hreserved) rfl rfl

/-- Every instruction makes the shared checks first (30_encoding.md R82 steps 1 and 4). -/
theorem commonFaults (i : Instr) : CommonFaults i.owner i := by
  intro s hv
  obtain ⟨k, hk⟩ := exec_eq_onOwnPort i
  refine ⟨fun hf => ?_, fun hf hp => ?_⟩
  · exact ⟨_, (hk s).trans (onOwnPort_halted hv hf), respondHalted_findsHalted s⟩
  · rw [hk, onOwnPort_otherPort hv hf hp]
    exact raise_raises .illegalPort s

theorem execAll_cons {i : Instr} {s t : State} (h : exec i s = .next t) (is : List Instr) :
    execAll (i :: is) s = execAll is t := by
  rw [execAll, h]

end Sys2Proof.Machine

namespace Sys2Proof.Safety

open Sys2Proof.Machine

section Performs

variable {p : Port} {l l' m : List Piece} {flag flag' : Bool} {data data' : Word} {s u t : State}

/-- An operation that does not write FAULT leaves the block ready for the next one of its port. -/
theorem Performs.ready (h : Performs l flag data s t) (hl : Piece.fault ∉ l) (hr : Ready p s) : Ready p t where
  valid := by rw [h.outside.cfg]; exact hr.valid
  live := (h.only.fault hl).trans hr.live
  onPort := h.outside.port.trans hr.onPort

/-- Of two operations one after the other the second one's answer stands. -/
theorem Performs.trans (h : Performs l flag data s u) (h' : Performs l' flag' data' u t) (hl : l ⊆ m) (hl' : l' ⊆ m) :
    Performs m flag' data' s t := by
  have hport := h.outside.port
  obtain ⟨hown, hother⟩ := h'.answer
  rw [hport] at hown hother
  exact
    { answer := ⟨hown, hother.trans h.answer.other⟩
      only := (h.only.mono hl).trans (h'.only.mono hl')
      outside := ⟨h'.outside.cfg.trans h.outside.cfg, h'.outside.port.trans hport,
        h'.outside.inbox.trans h.outside.inbox⟩ }

end Performs

end Sys2Proof.Safety

namespace Sys2Proof.Machine

open Sys2Proof.Safety

/-! ## Loading PX, and the element of PIX -/

section PixelRegister

variable {s : State}

/-- Loading PX, whatever number of free values was drawn for the pixel (10_state.md R21). -/
theorem loadPx_performs (v : Pixel) (n : Nat) :
    ∃ t, loadPx v (s.setDraws n) = .next t ∧ t.px = v ∧ t.pxWritten = true ∧
      Performs [.px] false (BitVec.ofNat 32 t.px.toNat) s t := by
  have hw : OnlyWrites [.px] s ((s.setDraws n).setPx v) :=
    ((OnlyWrites.refl _ s).setDraws n).setPx (List.mem_singleton_self _) v
  obtain ⟨t, ht, hp, rfl⟩ := performed_performs (flag := plainFlag) (data := zext32 v) hw ⟨rfl, rfl, rfl⟩ rfl rfl
  exact ⟨_, ht, rfl, rfl, zext32_eq v ▸ hp⟩

theorem exec_pxset_performs (h : Ready .M s) (r g b : Byte) :
    ∃ t, exec (.pxset r g b) s = .next t ∧ t.px = pixelOf r g b ∧ t.pxWritten = true ∧
      Performs [.px] false (BitVec.ofNat 32 t.px.toNat) s t := by
  rw [exec_pxset h]
  exact loadPx_performs (pixelOf r g b) s.draws

theorem exec_hsv2rgb_performs (h : Ready .M s) (hue sat val : Nat) :
    ∃ t, exec (.hsv2rgb hue sat val) s = .next t ∧ t.px = hsvToRgb hue sat val ∧ t.pxWritten = true ∧
      Performs [.px] false (BitVec.ofNat 32 t.px.toNat) s t := by
  rw [exec_hsv2rgb h]
  exact loadPx_performs (hsvToRgb hue sat val) s.draws

/-- `PIXWR` writes one element: with the stored value of PX, where there is one (42_pulse_encoder.md R131). -/
theorem exec_pixwr_performs (h : Ready .M s) {idx : Nat} (hidx : idx < s.cfg.N) :
    ∃ t v, exec (.pixwr idx) s = .next t ∧ t.pix = s.pix.write idx [v] ∧ (s.pxWritten = true → v = s.px) ∧
      Performs [.pix] false 0 s t := by
  have hw : OnlyWrites [.pix] s ((readPx s).2.writePix idx [(readPx s).1]) :=
    ((OnlyWrites.refl _ s).setDraws _).writePix (List.mem_singleton_self _) idx _
  obtain ⟨t, ht, hp, rfl⟩ := performed_performs (flag := plainFlag) (data := 0) hw ⟨rfl, rfl, rfl⟩ rfl rfl
  rw [exec_pixwr h, if_neg (Nat.not_le_of_lt hidx)]
  exact ⟨_, _, ht, rfl, fun hpx => by rw [readPx_written hpx], hp⟩

/-- `PIXRD` loads the stored value of the element, where there is one (42_pulse_encoder.md R132). -/
theorem exec_pixrd_performs (h : Ready .M s) {idx : Nat} (hidx : idx < s.cfg.N) :
    ∃ t, exec (.pixrd idx) s = .next t ∧ (∀ v, s.pix.read idx = some v → t.px = v) ∧ t.pxWritten = true ∧
      Performs [.px] false (BitVec.ofNat 32 t.px.toNat) s t := by
  rw [exec_pixrd h, if_neg (Nat.not_le_of_lt hidx)]
  obtain ⟨t, ht, hpx, hwritten, hp⟩ := loadPx_performs (readPix idx s).1 (readPix idx s).2.draws
  exact ⟨t, ht, fun v hv => hpx.trans (storedOrDraw_of_stored hv), hwritten, hp⟩

end PixelRegister

/-! ## The channels of a pixel -/

theorem extractByte_eq {px : Pixel} {lo : Nat} {b : Byte} (h : px.toNat / 2 ^ lo % 2 ^ 8 = b.toNat) :
    px.extractLsb' lo 8 = b := by
  rw [← BitVec.toNat_inj, BitVec.extractLsb'_toNat, Nat.shiftRight_eq_div_pow]
  exact h

theorem redOf_pixelOf (r g b : Byte) : redOf (pixelOf r g b) = r :=
  extractByte_eq (by rw [pixelOf_toNat]; omega)

theorem greenOf_pixelOf (r g b : Byte) : greenOf (pixelOf r g b) = g :=
  extractByte_eq (by rw [pixelOf_toNat]; omega)

theorem blueOf_pixelOf (r g b : Byte) : blueOf (pixelOf r g b) = b :=
  extractByte_eq (by rw [pixelOf_toNat]; omega)

/-! ## The conversion -/

/-- Multiplying first and dividing after (41_colormath.md R113, R115) does not exceed what is scaled. -/
theorem mul_div_le_of_le {k n : Nat} (a : Nat) (h : k ≤ n) : a * k / n ≤ a :=
  Nat.div_le_of_le_mul (by rw [Nat.mul_comm n]; exact Nat.mul_le_mul_left a h)

theorem chroma_le {sat : Nat} (h : sat < 256) (val : Nat) : chroma sat val ≤ val :=
  mul_div_le_of_le val (Nat.le_of_lt_succ h)

theorem hueSector_lt (hue : Nat) : hueSector hue < 6 := by
  unfold hueSector reducedHue
  omega

theorem ramp_le (sector c : Nat) {pos : Nat} (h : pos < 60) : ramp sector pos c ≤ c := by
  unfold ramp
  split
  · exact mul_div_le_of_le c h.le
  · exact mul_div_le_of_le c (Nat.sub_le 60 pos)

/-- The sectors where the ramp rises, one by one (41_colormath.md R115). -/
theorem ramp_eq_ite {sector : Nat} (h : sector < 6) (pos c : Nat) :
    ramp sector pos c = if sector = 0 ∨ sector = 2 ∨ sector = 4 then c * pos / 60 else c * (60 - pos) / 60 :=
  if_congr (by omega) rfl rfl

/-- The table of R117 as a chain of conditions. -/
theorem sectorComponents_eq_ite (sector c x : Nat) : sectorComponents sector c x =
    if sector = 0 then (c, x, 0) else if sector = 1 then (x, c, 0) else if sector = 2 then (0, c, x)
    else if sector = 3 then (0, x, c) else if sector = 4 then (x, 0, c) else (c, 0, x) := by
  unfold sectorComponents
  split
  case h_6 h₀ h₁ h₂ h₃ h₄ => rw [if_neg h₀, if_neg h₁, if_neg h₂, if_neg h₃, if_neg h₄]
  all_goals rfl

/-- In every row of the table one component is 0. -/
theorem sectorComponents_zero (sector c x : Nat) : (sectorComponents sector c x).1 = 0 ∨
    (sectorComponents sector c x).2.1 = 0 ∨ (sectorComponents sector c x).2.2 = 0 := by
  unfold sectorComponents
  split <;> simp

/-- In every row of the table one component is the chroma. -/
theorem sectorComponents_chroma (sector c x : Nat) : (sectorComponents sector c x).1 = c ∨
    (sectorComponents sector c x).2.1 = c ∨ (sectorComponents sector c x).2.2 = c := by
  unfold sectorComponents
  split <;> simp

theorem sectorComponents_le (sector : Nat) {c x : Nat} (h : x ≤ c) : (sectorComponents sector c x).1 ≤ c ∧
    (sectorComponents sector c x).2.1 ≤ c ∧ (sectorComponents sector c x).2.2 ≤ c := by
  unfold sectorComponents
  split <;> simp [h]

/-- The sector components of the converted pixel (41_colormath.md R117). -/
def hsvComponents (hue sat val : Nat) : Nat × Nat × Nat :=
  sectorComponents (hueSector hue) (chroma sat val) (ramp (hueSector hue) (huePos hue) (chroma sat val))

theorem hsvChannels_eq (hue sat val : Nat) : hsvChannels hue sat val =
    ((hsvComponents hue sat val).1 + (val - chroma sat val), (hsvComponents hue sat val).2.1 + (val - chroma sat val),
      (hsvComponents hue sat val).2.2 + (val - chroma sat val)) := rfl

theorem hsvComponents_le (hue sat val : Nat) : (hsvComponents hue sat val).1 ≤ chroma sat val ∧
    (hsvComponents hue sat val).2.1 ≤ chroma sat val ∧ (hsvComponents hue sat val).2.2 ≤ chroma sat val :=
  sectorComponents_le _ (ramp_le _ _ (Nat.mod_lt _ (by decide)))

theorem hsvComponents_zero (hue sat val : Nat) : (hsvComponents hue sat val).1 = 0 ∨
    (hsvComponents hue sat val).2.1 = 0 ∨ (hsvComponents hue sat val).2.2 = 0 :=
  sectorComponents_zero ..

theorem hsvComponents_chroma (hue sat val : Nat) : (hsvComponents hue sat val).1 = chroma sat val ∨
    (hsvComponents hue sat val).2.1 = chroma sat val ∨ (hsvComponents hue sat val).2.2 = chroma sat val :=
  sectorComponents_chroma ..

theorem hsvChannels_le {sat : Nat} (hsat : sat < 256) (hue val : Nat) : (hsvChannels hue sat val).1 ≤ val ∧
    (hsvChannels hue sat val).2.1 ≤ val ∧ (hsvChannels hue sat val).2.2 ≤ val := by
  have hle := hsvComponents_le hue sat val
  have hc := chroma_le hsat val
  simp only [hsvChannels_eq]
  omega

/-- R121 (a): the component that is the chroma gives the largest channel. -/
theorem max_hsvChannels {sat : Nat} (hsat : sat < 256) (hue val : Nat) : max (hsvChannels hue sat val).1
    (max (hsvChannels hue sat val).2.1 (hsvChannels hue sat val).2.2) = val := by
  have hle := hsvComponents_le hue sat val
  have hone := hsvComponents_chroma hue sat val
  have hc := chroma_le hsat val
  simp only [hsvChannels_eq]
  omega

/-- R121 (b): the component that is 0 gives the smallest channel. -/
theorem min_hsvChannels (hue sat val : Nat) : min (hsvChannels hue sat val).1
    (min (hsvChannels hue sat val).2.1 (hsvChannels hue sat val).2.2) = val - chroma sat val := by
  have hzero := hsvComponents_zero hue sat val
  simp only [hsvChannels_eq]
  omega

theorem hsvChannels_mod (hue sat val : Nat) : hsvChannels (hue % 360) sat val = hsvChannels hue sat val := by
  have hmod : reducedHue (hue % 360) = reducedHue hue := Nat.mod_mod hue 360
  simp only [hsvChannels, hueSector, huePos, hmod]

theorem hsvToRgb_mod (hue sat val : Nat) : hsvToRgb (hue % 360) sat val = hsvToRgb hue sat val := by
  rw [hsvToRgb, hsvToRgb, hsvChannels_mod]

/-- No channel wraps: the pixel's channels are those of the conversion (41_colormath.md R120). -/
theorem hsvToRgb_channels {sat val : Nat} (hsat : sat < 256) (hval : val < 256) (hue : Nat) :
    (redOf (hsvToRgb hue sat val)).toNat = (hsvChannels hue sat val).1 ∧
    (greenOf (hsvToRgb hue sat val)).toNat = (hsvChannels hue sat val).2.1 ∧
    (blueOf (hsvToRgb hue sat val)).toNat = (hsvChannels hue sat val).2.2 := by
  have hle := hsvChannels_le hsat hue val
  simp only [hsvToRgb, redOf_pixelOf, greenOf_pixelOf, blueOf_pixelOf, BitVec.toNat_ofNat]
  omega

theorem hsvToRgb_toNat {sat val : Nat} (hsat : sat < 256) (hval : val < 256) (hue : Nat) :
    (hsvToRgb hue sat val).toNat = (hsvChannels hue sat val).1 * 2 ^ 16 + (hsvChannels hue sat val).2.1 * 2 ^ 8 +
      (hsvChannels hue sat val).2.2 := by
  have hle := hsvChannels_le hsat hue val
  simp only [hsvToRgb, pixelOf_toNat, BitVec.toNat_ofNat]
  omega

theorem wellFormed_hsv2rgb {hue sat val : Nat} :
    (Instr.hsv2rgb hue sat val).wellFormed = true ↔ hue < 4096 ∧ sat < 256 ∧ val < 256 := by
  simp only [Instr.wellFormed, Bool.and_eq_true, decide_eq_true_eq, and_assoc]

end Sys2Proof.Machine

open Sys2Proof Sys2Proof.Laws Sys2Proof.Machine Sys2Proof.Safety

/-- Settles O7 (41_colormath.md R121): one sector component is the chroma, one is 0, and the others lie between. -/
theorem hsvConversionLaws : Obligations.HsvConversionLaws := by
  intro hue sat val hw
  obtain ⟨_, hsat, hval⟩ := wellFormed_hsv2rgb.mp hw
  obtain ⟨hred, hgreen, hblue⟩ := hsvToRgb_channels hsat hval hue
  obtain ⟨hr, hg, hb⟩ := hsvChannels_le hsat hue val
  have hval : val ≤ 255 := Nat.le_of_lt_succ hval
  dsimp only
  rw [hred, hgreen, hblue]
  exact ⟨max_hsvChannels hsat hue val, min_hsvChannels hue sat val, ⟨hr.trans hval, hg.trans hval, hb.trans hval⟩,
    (hsvToRgb_mod hue sat val).symm, hsvComponents_zero hue sat val, hsvComponents_chroma hue sat val⟩

/-- Settles O6 (41_colormath.md R118): the formulas written out are those of the conversion. -/
theorem hsv2rgbLoadsConvertedPixel : Obligations.Hsv2rgbLoadsConvertedPixel := by
  refine ⟨encodedAs_of_rowOf .H rfl fun _ => ?_, ?_, fun hue sat val => commonFaults (.hsv2rgb hue sat val)⟩
  · simp [rowOf, field_eq]
  · rintro s hue sat val _ _ _ _ x _ r1 g1 b1 hw hready rfl rfl rfl rfl hx rfl hparts
    obtain ⟨_, hsat, hval⟩ := wellFormed_hsv2rgb.mp hw
    have hx : x = ramp (hueSector hue) (huePos hue) (chroma sat val) :=
      hx.trans (ramp_eq_ite (hueSector_lt hue) _ _).symm
    have hparts : (r1, g1, b1) = hsvComponents hue sat val := by
      rw [hparts, hx]; exact (sectorComponents_eq_ite ..).symm
    have hle := hsvChannels_le hsat hue val
    obtain ⟨t, ht, hpx, hwritten, hp⟩ := exec_hsv2rgb_performs hready hue sat val
    have hnum : t.px.toNat = _ := hpx ▸ hsvToRgb_toNat hsat hval hue
    rw [hsvChannels_eq, ← hparts] at hle hnum
    obtain ⟨hr, hg, hb⟩ := hle
    have hval : val ≤ 255 := Nat.le_of_lt_succ hval
    exact ⟨t, ht, hr.trans hval, hg.trans hval, hb.trans hval, hnum, hwritten, hp⟩

/-- Settles O8 (41_colormath.md R119). -/
theorem pxsetLoadsImmediatePixel : Obligations.PxsetLoadsImmediatePixel := by
  refine ⟨encodedAs_of_rowOf .X (by decide) fun _ => ?_, fun s r g b h => ?_, fun r g b => commonFaults (.pxset r g b)⟩
  · simp [rowOf, byteField_eq]
  · obtain ⟨t, ht, hpx, hwritten, hp⟩ := exec_pxset_performs h r g b
    exact ⟨t, ht, hpx ▸ pixelOf_toNat r g b, hwritten, hp⟩

/-- Settles O17 (41_colormath.md R119, 42_pulse_encoder.md R131, R132), operation by operation. -/
theorem storedPixelReadsBack : Obligations.StoredPixelReadsBack := by
  intro s idx r g b h hidx
  obtain ⟨s₁, e₁, hpx, hwritten, p₁⟩ := exec_pxset_performs h r g b
  have h₁ := p₁.ready (by decide) h
  obtain ⟨s₂, v, e₂, hpix, hv, p₂⟩ := exec_pixwr_performs h₁ (p₁.outside.cfg ▸ hidx)
  have p₁₂ := p₁.trans p₂ (m := [.px, .pix]) (by simp) (by simp)
  have h₂ := p₁₂.ready (by decide) h
  have hread : s₂.pix.read idx = some (pixelOf r g b) := by
    rw [hpix, Memory.read_write_single, if_pos rfl, hv hwritten, hpx]
  obtain ⟨t, e₃, ht, _, p₃⟩ := exec_pixrd_performs h₂ (p₁₂.outside.cfg ▸ hidx)
  have p := p₁₂.trans p₃ (m := [.px, .pix]) (by simp) (by simp)
  refine ⟨t, ?_, ?_, ?_, ?_, p⟩
  · exact (execAll_cons e₁ _).trans ((execAll_cons e₂ _).trans (execAll_cons e₃ _))
  · rw [ht _ hread, redOf_pixelOf]
  · rw [ht _ hread, greenOf_pixelOf]
  · rw [ht _ hread, blueOf_pixelOf]
end

section
/-! PROOFS. Unit ENC (42_pulse_encoder.md): the wire order of a pixel's bits (R139), the operations PIXWR (R131), PIXRD (R132),
FILLALL (R140), FILLN (R141, R142) and PULRD (R150), where the first terminator stands (R143), and what a fill promises on the
line (R138). -/

namespace Sys2Proof.Machine

open Sys2Proof.Laws Sys2Proof.Safety

/-! ## The bits of a pixel on the wire -/

/-- Taking in bits one by one, the most significant first, gives the number of the leading bits. -/
theorem foldl_bits_msbFirst {width : Nat} (x : BitVec width) {bit : Nat → Bool} (lo n : Nat) {m : Nat} (hm : m ≤ width)
    (hbit : ∀ j, j < m → bit (lo + j) = x.getLsbD (width - 1 - j)) :
    (List.range' lo m).foldl (fun n j => 2 * n + (bit j).toNat) n = n * 2 ^ m + x.toNat / 2 ^ (width - m) := by
  induction m with
  | zero => simp [Nat.div_eq_of_lt x.isLt]
  | succ m ih =>
    have hnext : (bit (lo + m)).toNat = x.toNat / 2 ^ (width - (m + 1)) % 2 := by
      rw [hbit m (Nat.lt_succ_self m), Nat.sub_sub, Nat.add_comm 1 m, BitVec.getLsbD, Nat.toNat_testBit]
    have hhead : x.toNat / 2 ^ (width - m) = x.toNat / 2 ^ (width - (m + 1)) / 2 := by
      rw [Nat.div_div_eq_div_mul, ← Nat.pow_succ]
      congr 2
      omega
    rw [List.range'_1_concat, List.foldl_append, ih (Nat.le_of_succ_le hm) fun j hj => hbit j (Nat.lt_succ_of_lt hj),
      List.foldl_cons, List.foldl_nil, hnext, hhead, Nat.pow_succ,
      ← Nat.mul_assoc]
    omega

/-- Eight bits one after the other, the most significant first, are the byte. -/
theorem foldl_byte_msbFirst {b : Byte} {bit : Nat → Bool} {lo : Nat} (n : Nat)
    (hbit : ∀ j, j < 8 → bit (lo + j) = b.getLsbD (7 - j)) :
    (List.range' lo 8).foldl (fun n j => 2 * n + (bit j).toNat) n = n * 2 ^ 8 + b.toNat := by
  rw [foldl_bits_msbFirst b lo n (Nat.le_refl 8) hbit, Nat.sub_self, Nat.pow_zero, Nat.div_one]

/-- The three bytes on the wire, each bit at its place in the 24-bit pixel word (42_pulse_encoder.md R139). -/
theorem wireBit_eq_getLsbD (px : Pixel) {j : Nat} (hj : j < 24) : wireBit px j = px.getLsbD (wireIndex j) := by
  have channel {lo i k : Nat} (hi : i < 8) (hk : lo + i = k) : (px.extractLsb' lo 8).getLsbD i = px.getLsbD k := by
    rw [BitVec.getLsbD_extractLsb', decide_eq_true hi, Bool.true_and, hk]
  have hbyte : j / 8 = 0 ∨ j / 8 = 1 ∨ j / 8 = 2 := by omega
  unfold wireBit wireIndex
  rcases hbyte with h | h | h <;> rw [h]
  · rw [if_pos (by omega)]
    exact channel (lo := 8) (by omega) (by omega)
  · rw [if_neg (by omega), if_pos (by omega)]
    exact channel (lo := 16) (by omega) (by omega)
  · rw [if_neg (by omega), if_neg (by omega)]
    exact channel (lo := 0) (by omega) (by omega)

/-! ## The elements of PIX and PULSE -/

/-- An operation whose operand is outside its space raises the fault of its range check (30_encoding.md R82 step 5). -/
theorem raises_of_outside {i : Instr} {c : Cause} {s : State} {outside : Prop} [Decidable outside] {inside : Result}
    (h : exec i s = if outside then raise c s else inside) (ho : outside) :
    ∃ t, exec i s = .next t ∧ Raises c s t := by
  rw [h, if_pos ho]
  exact raise_raises c s

/-- `PULRD` answers the stored value of the element, where there is one (42_pulse_encoder.md R150). -/
theorem exec_pulrd_performs {s : State} (h : Ready .M s) {idx : Nat} (hidx : idx ≤ 24 * s.cfg.N) : ∃ t d,
    exec (.pulrd idx) s = .next t ∧ Performs [] false d s t ∧ ∀ v, s.pulse.read idx = some v → d = v := by
  have hw : OnlyWrites [] s (readPulse idx s).2 := (OnlyWrites.refl _ s).setDraws _
  obtain ⟨t, ht, hp, _⟩ :=
    performed_performs (flag := plainFlag) (data := (readPulse idx s).1) hw ⟨rfl, rfl, rfl⟩ rfl rfl
  rw [exec_pulrd h, if_neg (Nat.not_lt_of_le hidx)]
  exact ⟨t, _, ht, hp, fun v hv => storedOrDraw_of_stored hv⟩

/-! ## The descriptors of a bit -/

section Durations

theorem highTicks_descOf {hi lo : Nat} (hhi : hi ≤ 65535) (hlo : lo ≤ 65535) : highTicks (descOf hi lo) = hi := by
  rw [highTicks, BitVec.extractLsb'_toNat, descOf_eq hlo, BitVec.toNat_ofNat, Nat.shiftRight_eq_div_pow]
  omega

theorem lowTicks_descOf {lo : Nat} (hi : Nat) (hlo : lo ≤ 65535) : lowTicks (descOf hi lo) = lo := by
  rw [lowTicks, BitVec.extractLsb'_toNat, descOf_eq hlo, BitVec.toNat_ofNat, Nat.shiftRight_eq_div_pow]
  omega

variable {c : Config} (hv : parametersValid c = true)
include hv

theorem bitDesc_eq (bit : Bool) : bitDesc c bit = if bit then descOne c else descZero c := by
  obtain ⟨_, hticks, _⟩ := (parametersValid_iff c).mp hv
  rw [descOne, descZero, descOf_eq (hticks c.T1L (by simp)).2, descOf_eq (hticks c.T0L (by simp)).2, bitDesc]

theorem highTicks_bitDesc (bit : Bool) : highTicks (bitDesc c bit) = if bit then c.T1H else c.T0H := by
  obtain ⟨_, hticks, _⟩ := (parametersValid_iff c).mp hv
  rw [bitDesc_eq hv]
  cases bit
  · exact highTicks_descOf (hticks c.T0H (by simp)).2 (hticks c.T0L (by simp)).2
  · exact highTicks_descOf (hticks c.T1H (by simp)).2 (hticks c.T1L (by simp)).2

theorem lowTicks_bitDesc (bit : Bool) : lowTicks (bitDesc c bit) = if bit then c.T1L else c.T0L := by
  obtain ⟨_, hticks, _⟩ := (parametersValid_iff c).mp hv
  rw [bitDesc_eq hv]
  cases bit
  · exact lowTicks_descOf c.T0H (hticks c.T0L (by simp)).2
  · exact lowTicks_descOf c.T1H (hticks c.T1L (by simp)).2

/-- A bit's descriptor promises the durations of the parameters (42_pulse_encoder.md R138). -/
theorem levels_bitDesc (bit : Bool) : [(true, highTicks (bitDesc c bit)), (false, lowTicks (bitDesc c bit))] =
    if bit then [(true, c.T1H), (false, c.T1L)] else [(true, c.T0H), (false, c.T0L)] := by
  rw [highTicks_bitDesc hv, lowTicks_bitDesc hv]
  cases bit <;> rfl

/-- A bit is high for at least one tick, the terminator for none (42_pulse_encoder.md R137). -/
theorem bitDesc_ne_terminator (bit : Bool) : bitDesc c bit ≠ terminator := by
  obtain ⟨_, hticks, _⟩ := (parametersValid_iff c).mp hv
  have hT0H := (hticks c.T0H (by simp)).1
  have hT1H := (hticks c.T1H (by simp)).1
  have hterm : highTicks terminator = 0 := rfl
  intro h
  have hhigh := highTicks_bitDesc hv bit
  rw [h, hterm] at hhigh
  split at hhigh <;> omega

theorem expandPixel_eq_map (px : Pixel) :
    expandPixel c px = (List.range 24).map (fun j => bitDesc c (px.getLsbD (wireIndex j))) :=
  List.map_congr_left fun j hj => by
    rw [bitDesc_eq hv, wireBit_eq_getLsbD px (List.mem_range.mp hj)]

end Durations

/-! ## What a fill leaves in PULSE -/

theorem onOwnPort_congr {p : Port} {k k' : State → Result} {s : State} (h : k s = k' s) :
    onOwnPort p k s = onOwnPort p k' s := by
  simp only [onOwnPort, unlessHalted, withParameters, h]

/-- `FILLALL` is `FILLN N` on every state, `N` being in the range of `FILLN` (42_pulse_encoder.md R140). -/
theorem exec_fillall_eq_filln (s : State) : exec .fillall s = exec (.filln s.cfg.N) s := by
  rw [exec, execFillall, exec, execFilln]
  exact onOwnPort_congr (if_neg (Nat.lt_irrefl s.cfg.N)).symm

theorem exec_filln_eq_fill {s : State} {k : Nat} (h : Ready .M s) (hk : k ≤ s.cfg.N) : exec (.filln k) s = fill k s := by
  rw [exec_filln h, if_neg (Nat.not_lt_of_le hk)]

theorem fill_performs (k : Nat) (s : State) :
    ∃ t, fill k s = .next t ∧ Performs [.pulse] false (BitVec.ofNat 32 (24 * k)) s t := by
  have hw : OnlyWrites [.pulse] s ((readPixRun 0 k s).2.writePulse 0 (fillImage s.cfg (readPixRun 0 k s).1)) :=
    ((OnlyWrites.refl _ s).setDraws _).writePulse (List.mem_singleton_self _) 0 _
  obtain ⟨t, ht, hp, _⟩ :=
    performed_performs (flag := plainFlag) (data := BitVec.ofNat 32 (24 * k)) hw ⟨rfl, rfl, rfl⟩ rfl rfl
  exact ⟨t, ht, hp⟩

theorem Memory.read_write_fillImage (m : Memory 32) (c : Config) (pxs : List Pixel) (a : Nat) :
    (m.write 0 (fillImage c pxs)).read a = if a ≤ 24 * pxs.length then (fillImage c pxs)[a]? else m.read a := by
  rw [Memory.read_write, fillImage_length, Nat.sub_zero]
  exact if_congr (by omega) rfl rfl

section Fill

variable {s t : State} {k : Nat}

theorem readPixRun_length (i k : Nat) (s : State) : (readPixRun i k s).1.length = k := storedOrDrawRun_length ..

/-- A run from the first pixel on gives of each the stored value, where there is one. -/
theorem readPixRun_getElem {i : Nat} (hi : i < k) (s : State) :
    ∃ px, (readPixRun 0 k s).1[i]? = some px ∧ ∀ u, s.pix.read i = some u → px = u := by
  have h := storedOrDrawRun_getElem s.pix Config.unwrittenPix 0 k s.draws i hi
  rw [Nat.zero_add] at h
  exact h

/-- Where every pixel has been written, a fill encodes the stored ones. -/
theorem readPixRun_of_stored {us : List Pixel} (h : ∀ i, i < us.length → s.pix.read i = us[i]?) :
    (readPixRun 0 us.length s).1 = us := by
  refine List.ext_getElem (readPixRun_length ..) fun i _ hi => ?_
  obtain ⟨px, hpx, hstored⟩ := readPixRun_getElem hi s
  obtain rfl := hstored _ ((h i hi).trans (List.getElem?_eq_getElem hi))
  exact (List.getElem?_eq_some_iff.mp hpx).2

/-- PULSE after a fill: the image of the pixels read, and above it what stood there before. -/
theorem pulse_read_of_fill (h : fill k s = .next t) (a : Nat) :
    t.pulse.read a = if a ≤ 24 * k then (fillImage s.cfg (readPixRun 0 k s).1)[a]? else s.pulse.read a := by
  have hpulse : t.pulse = s.pulse.write 0 (fillImage s.cfg (readPixRun 0 k s).1) := by cases h; rfl
  rw [hpulse, Memory.read_write_fillImage, readPixRun_length]

theorem filled_of_fill (hv : parametersValid s.cfg = true) (h : fill k s = .next t) : Filled k s t where
  pixels i hi := by
    obtain ⟨px, hpx, hstored⟩ := readPixRun_getElem hi s
    refine ⟨px, hstored, fun j hj => ?_⟩
    rw [pulse_read_of_fill h, if_pos (by omega), fillImage_data s.cfg hj hpx, wireBit_eq_getLsbD px hj, bitDesc_eq hv]
  last := by
    have hlast := fillImage_last s.cfg (readPixRun 0 k s).1
    rw [readPixRun_length] at hlast
    rw [pulse_read_of_fill h, if_pos (Nat.le_refl _), hlast, terminator]
  above a ha := (pulse_read_of_fill h a).trans (if_neg (Nat.not_le_of_lt ha))

end Fill

/-! ## The first terminator -/

/-- The element after the pixels of a fill is the first that is no bit's descriptor (42_pulse_encoder.md R143). -/
theorem terminated_of_filled {k : Nat} {s t : State} (hv : parametersValid s.cfg = true) (h : Filled k s t) :
    Terminated k t.pulse where
  last := h.last
  below a ha := by
    obtain ⟨px, _, hdata⟩ := h.pixels (a / 24) (by omega)
    have hread := hdata (a % 24) (Nat.mod_lt a (by decide))
    rw [Nat.div_add_mod] at hread
    exact ⟨_, hread, bitDesc_ne_terminator hv _⟩

/-- Only the fills write PULSE (42_pulse_encoder.md R140, R141). -/
theorem ExecOutcome.pulse_eq {i : Instr} {s t : State} (h : ExecOutcome i s t) (hall : i ≠ .fillall)
    (hn : ∀ k, i ≠ .filln k) : t.pulse = s.pulse := by
  cases h with
  | filled _ k hi =>
    rcases hi with hi | ⟨hi, _⟩
    · exact absurd hi (hn k)
    · exact absurd hi hall
  | _ => rfl

theorem StepOutcome.pulse_eq {s t : State} (h : StepOutcome s t) (hreset : (takeInput s).1 ≠ .reset)
    (hfill : ∀ p w, (takeInput s).1 = .command p w → decode w ≠ .ok .fillall ∧ ∀ k, decode w ≠ .ok (.filln k)) :
    t.pulse = s.pulse := by
  cases h with
  | nothing _ e => rw [e]
  | reset h => exact absurd h hreset
  | performed p w l n h i hd e =>
    obtain ⟨hall, hn⟩ := hfill p w h
    exact e.pulse_eq (fun hi => hall (hi ▸ hd)) (fun k hi => hn k (hi ▸ hd))
  | halted p w l n _ _ _ _ e => rw [e]; rfl
  | illegal p w l n _ _ _ _ e => rw [e]; rfl

/-! ## The line -/

theorem dataBits_append_terminator {ds : List Desc} (h : ∀ d ∈ ds, d ≠ terminator) (rest : List Desc) :
    dataBits (ds ++ terminator :: rest) = ds := by
  induction ds with
  | nil => exact if_pos rfl
  | cons d ds ih =>
    rw [List.forall_mem_cons] at h
    rw [List.cons_append, dataBits, if_neg h.1, ih h.2]

/-- What the image of a fill promises on the line, whatever stands above the terminator (42_pulse_encoder.md R138, R139). -/
theorem waveform_fillImage {c : Config} (hv : parametersValid c = true) (pxs : List Pixel) (rest : List Desc) :
    waveform (fillImage c pxs ++ rest) = pxs.flatMap (fun px => (List.range 24).flatMap (fun j =>
      if px.getLsbD (wireIndex j) then [(true, c.T1H), (false, c.T1L)] else [(true, c.T0H), (false, c.T0L)])) := by
  have hbits : ∀ d ∈ pxs.flatMap (expandPixel c), d ≠ terminator := by
    intro d hd
    obtain ⟨px, _, hd⟩ := List.mem_flatMap.mp hd
    rw [expandPixel_eq_map hv] at hd
    obtain ⟨j, _, rfl⟩ := List.mem_map.mp hd
    exact bitDesc_ne_terminator hv _
  rw [waveform, fillImage, List.append_assoc, List.singleton_append, dataBits_append_terminator hbits, List.flatMap_assoc]
  simp only [expandPixel_eq_map hv, List.flatMap_map, levels_bitDesc hv]

/-- Reading a sequence element by element gives it back. -/
theorem filterMap_range_of_getElem {α : Type} {f : Nat → Option α} {l : List α} (h : ∀ i, i < l.length → f i = l[i]?) :
    (List.range l.length).filterMap f = l := by
  induction l generalizing f with
  | nil => rfl
  | cons v l ih =>
    have hhead : f 0 = some v := h 0 (Nat.succ_pos _)
    have htail : ∀ i, i < l.length → (f ∘ Nat.succ) i = l[i]? := fun i hi => h (i + 1) (Nat.succ_lt_succ hi)
    rw [List.length_cons, List.range_succ_eq_map, List.filterMap_cons, hhead, List.filterMap_map, ih htail]

/-- PULSE read from index 0 on, after a fill of pixels that fit. -/
theorem pulses_of_fill {s t : State} {us : List Pixel} (hlen : us.length ≤ s.cfg.N)
    (hus : ∀ i, i < us.length → s.pix.read i = us[i]?) (h : fill us.length s = .next t) :
    ∃ rest, (List.range s.cfg.PLEN).filterMap (fun a => t.pulse.read a) = fillImage s.cfg us ++ rest := by
  have himage : ∀ a, a < (fillImage s.cfg us).length → t.pulse.read a = (fillImage s.cfg us)[a]? := by
    intro a ha
    rw [fillImage_length] at ha
    rw [pulse_read_of_fill h, if_pos (by omega), readPixRun_of_stored hus]
  have hsize : s.cfg.PLEN = (fillImage s.cfg us).length + (s.cfg.PLEN - (fillImage s.cfg us).length) := by
    rw [fillImage_length, Config.PLEN]; omega
  rw [hsize, List.range_add, List.filterMap_append, filterMap_range_of_getElem himage]
  exact ⟨_, rfl⟩

end Sys2Proof.Machine

open Sys2Proof Sys2Proof.Laws Sys2Proof.Machine Sys2Proof.Safety

/-- Settles O11 (42_pulse_encoder.md R139): bit by bit, and byte by byte as a number. -/
theorem expansionIsGreenRedBlueMsbFirst : Obligations.ExpansionIsGreenRedBlueMsbFirst := by
  intro c px byte bit hgreen hred hblue hbit
  have hbyte (i : Nat) (hi : i < 3) (j : Nat) (hj : j < 8) : bit (8 * i + j) = (byte i).getLsbD (7 - j) := by
    rw [hbit (8 * i + j) (by omega)]
    congr 2 <;> omega
  have hchannel (i : Nat) (hi : i < 3) : byte i = wireByte px i := by
    interval_cases i
    · exact hgreen
    · exact hred
    · exact hblue
  have hwire (j : Nat) (hj : j < 24) : bit j = wireBit px j := by
    rw [hbit j hj, hchannel (j / 8) (by omega), wireBit]
  refine ⟨expandPixel_length c px, fun j hj => ?_, ?_⟩
  · rw [expandPixel_getElem c px hj, hwire j hj]
  · have hsplit : List.range 24 = List.range' (8 * 0) 8 ++ (List.range' (8 * 1) 8 ++ List.range' (8 * 2) 8) := rfl
    rw [hsplit, List.foldl_append, List.foldl_append, foldl_byte_msbFirst _ (hbyte 0 (by decide)),
      foldl_byte_msbFirst _ (hbyte 1 (by decide)), foldl_byte_msbFirst _ (hbyte 2 (by decide))]
    omega

/-- Settles O9 (42_pulse_encoder.md R131): one element is written. -/
theorem pixwrStoresPixelRegister : Obligations.PixwrStoresPixelRegister := by
  refine ⟨encodedAs_of_rowOf .I12 (by decide) fun _ => ?_, fun s idx h hidx => ?_,
    fun s idx h => raises_of_outside (exec_pixwr h idx), fun idx => commonFaults (.pixwr idx)⟩
  · simp [rowOf, field_eq]
  · obtain ⟨t, v, ht, hpix, hv, hp⟩ := exec_pixwr_performs h hidx
    have hread (a : Nat) : t.pix.read a = if a = idx then some v else s.pix.read a := by
      rw [hpix, Memory.read_write_single]
    have hstored : t.pix.read idx = some v := (hread idx).trans (if_pos rfl)
    exact ⟨t, ht, hp, fun hpx => hv hpx ▸ hstored, ⟨v, hstored⟩, fun a ha => (hread a).trans (if_neg ha)⟩

/-- Settles O10 (42_pulse_encoder.md R132): PX is loaded with the element. -/
theorem pixrdLoadsPixelRegister : Obligations.PixrdLoadsPixelRegister := by
  refine ⟨encodedAs_of_rowOf .I12 (by decide) fun _ => ?_, fun s idx h hidx => ?_,
    fun s idx h => raises_of_outside (exec_pixrd h idx), fun idx => commonFaults (.pixrd idx)⟩
  · simp [rowOf, field_eq]
  · obtain ⟨t, ht, hpx, hwritten, hp⟩ := exec_pixrd_performs h hidx
    exact ⟨t, ht, hp, hwritten, hpx⟩

/-- Settles O15 (42_pulse_encoder.md R150): the element is read and nothing written. -/
theorem pulrdReturnsDescriptor : Obligations.PulrdReturnsDescriptor := by
  refine ⟨encodedAs_of_rowOf .I16 (by decide) fun _ => ?_, fun s idx h => exec_pulrd_performs h,
    fun s idx h => raises_of_outside (exec_pulrd h idx), fun idx => commonFaults (.pulrd idx)⟩
  simp [rowOf, field_eq]

/-- Settles O13 (42_pulse_encoder.md R141, R142). -/
theorem fillnEncodesLeadingPixels : Obligations.FillnEncodesLeadingPixels := by
  refine ⟨encodedAs_of_rowOf .I12 (by decide) fun _ => ?_, fun s k h hk => ?_,
    fun s k h => raises_of_outside (exec_filln h k), fun k => commonFaults (.filln k)⟩
  · simp [rowOf, field_eq]
  · obtain ⟨t, ht, hp⟩ := fill_performs k s
    exact ⟨t, (exec_filln_eq_fill h hk).trans ht, hp, filled_of_fill h.valid ht⟩

/-- Settles O12 (42_pulse_encoder.md R140). -/
theorem fillallEncodesEveryPixel : Obligations.FillallEncodesEveryPixel := by
  refine ⟨encodedAs_of_rowOf .Z (by decide) fun _ => rfl, fun s h => ?_, exec_fillall_eq_filln, commonFaults .fillall⟩
  obtain ⟨t, ht, hp⟩ := fill_performs s.cfg.N s
  exact ⟨t, (exec_fillall h).trans ht, hp, filled_of_fill h.valid ht⟩

/-- Settles O14 (42_pulse_encoder.md R143): a fill sets the first terminator, and nothing else writes PULSE. -/
theorem terminatorStaysUntilNextFill : Obligations.TerminatorStaysUntilNextFill := by
  refine ⟨fun s t k h hk ht => ?_, fun s t h ht => ?_, fun s t k ht hreset hfill hterm => ?_⟩
  · rw [exec_filln_eq_fill h hk] at ht
    exact terminated_of_filled h.valid (filled_of_fill h.valid ht)
  · rw [exec_fillall h] at ht
    exact terminated_of_filled h.valid (filled_of_fill h.valid ht)
  · rw [(step_outcome ht).pulse_eq hreset hfill]
    exact hterm

/-- Settles O16 (42_pulse_encoder.md R138, R139): PULSE holds the image of the written pixels, whose waveform is theirs. -/
theorem filledPulsesDescribeTheLine : Obligations.FilledPulsesDescribeTheLine := by
  intro s t us h hlen hus ht
  rw [exec_filln_eq_fill h hlen] at ht
  obtain ⟨rest, hpulses⟩ := pulses_of_fill hlen hus ht
  rw [hpulses, waveform_fillImage h.valid]
end

section
/-! PROOFS. Unit CRC (43_checksum.md): the byte step (R162) and its laws (R169), the operations CRCINIT (R163), CRCUPD (R164)
and CRCRD (R165), the checksum of a sequence (R166) and of a command frame (R167, R168). -/

namespace Sys2Proof.Machine

open Sys2Proof.Laws Sys2Proof.Safety

/-! ## The byte step -/

/-- One iteration, the top bit by its number (43_checksum.md R162). -/
theorem crcShift_eq_ite (t : BitVec 16) :
    crcShift t = if t.getLsbD 15 then (t <<< 1) ^^^ 0x1021 else t <<< 1 := by
  rw [crcShift, BitVec.msb_eq_getLsbD_last]
  rfl

/-- A chain of values, each one iteration after the one before, ends with the iterations of the first. -/
theorem crcShifts_of_chain {n : Nat} {u : Nat → BitVec 16} (hu : ∀ k, k < n → u (k + 1) = crcShift (u k)) :
    crcShifts n (u 0) = u n := by
  induction n generalizing u with
  | zero => rfl
  | succ n ih =>
    have htail : crcShifts n (u 1) = u (n + 1) :=
      ih (u := fun k => u (k + 1)) fun k hk => hu (k + 1) (Nat.succ_lt_succ hk)
    rw [crcShifts, ← hu 0 (Nat.succ_pos n), htail]

/-- While the top bit is clear an iteration is a plain shift: no bit of the value reaches the top in `n` iterations. -/
theorem crcShifts_of_lt {n : Nat} {t : BitVec 16} (h : t.toNat * 2 ^ n < 2 ^ 16) : crcShifts n t = t <<< n := by
  induction n generalizing t with
  | zero => exact (BitVec.shiftLeft_zero t).symm
  | succ n ih =>
    rw [Nat.pow_succ', ← Nat.mul_assoc] at h
    have hdouble : t.toNat * 2 < 2 ^ 16 := Nat.lt_of_le_of_lt (Nat.le_mul_of_pos_right _ (Nat.two_pow_pos n)) h
    have hmsb : t.msb = false := by rw [BitVec.msb_eq_false_iff_two_mul_lt]; omega
    have hshift : (t <<< 1).toNat = t.toNat * 2 := by
      rw [BitVec.toNat_shiftLeft, Nat.shiftLeft_eq, Nat.pow_one, Nat.mod_eq_of_lt hdouble]
    rw [crcShifts, crcShift, hmsb, if_neg Bool.false_ne_true, ih (hshift ▸ h), ← BitVec.shiftLeft_add, Nat.add_comm]

/-- Bit 0 of the polynomial is 1, so bit 0 after an iteration tells what the top bit was, and the shift can be undone
(43_checksum.md R169). -/
theorem crcShift_injective : Function.Injective crcShift := by
  intro t t' h
  obtain ⟨hzero, hbits⟩ := crcShift_bits t
  obtain ⟨hzero', hbits'⟩ := crcShift_bits t'
  have hmsb : t.msb = t'.msb := by rw [← hzero, ← hzero', h]
  apply BitVec.eq_of_getLsbD_eq
  intro k hk
  rcases Nat.lt_succ_iff_lt_or_eq.mp hk with hlow | rfl
  · rw [hbits k hlow, hbits' k hlow, h, hmsb]
  · rw [BitVec.msb_eq_getLsbD_last, BitVec.msb_eq_getLsbD_last] at hmsb
    exact hmsb

theorem crcShifts_injective (n : Nat) : Function.Injective (crcShifts n) := by
  induction n with
  | zero => exact Function.injective_id
  | succ n ih => exact ih.comp crcShift_injective

theorem crcStep_injective_register (byte : Byte) : Function.Injective (fun crc => crcStep crc byte) :=
  fun _ _ h => (BitVec.xor_left_inj _).mp (crcShifts_injective 8 h)

theorem byteInHigh_toNat (b : Byte) : (b.setWidth 16 <<< 8).toNat = b.toNat * 2 ^ 8 := by
  have hb := b.isLt
  rw [BitVec.toNat_shiftLeft, Nat.shiftLeft_eq, BitVec.toNat_setWidth]
  omega

theorem crcStep_injective_byte (crc : BitVec 16) : Function.Injective (crcStep crc) := by
  intro b b' h
  have hhigh : b.setWidth 16 <<< 8 = b'.setWidth 16 <<< 8 :=
    (BitVec.xor_right_inj _).mp (crcShifts_injective 8 h)
  apply BitVec.eq_of_toNat_eq
  have hnum := congrArg BitVec.toNat hhigh
  rw [byteInHigh_toNat, byteInHigh_toNat] at hnum
  omega

/-- A one-to-one map of a register to itself is onto: the register has finitely many values. -/
theorem bijective_of_injective {width : Nat} {f : BitVec width → BitVec width} (h : Function.Injective f) :
    Function.Bijective f :=
  have : Finite (BitVec width) := Finite.of_injective BitVec.toFin fun _ _ => BitVec.eq_of_toFin_eq
  Finite.injective_iff_bijective.mp h

/-! ## The checksum of a sequence -/

/-- Feeding equal bytes to two registers keeps them apart (43_checksum.md R169 (a)). -/
theorem foldl_crcStep_injective (bytes : List Byte) : Function.Injective (fun crc => bytes.foldl crcStep crc) := by
  induction bytes with
  | nil => exact Function.injective_id
  | cons b bytes ih => exact ih.comp (crcStep_injective_register b)

theorem crc16_ne_of_byte_ne (before after : List Byte) {b b' : Byte} (h : b ≠ b') :
    crc16 (before ++ b :: after) ≠ crc16 (before ++ b' :: after) := by
  intro heq
  rw [crc16, crc16, List.foldl_append, List.foldl_append] at heq
  exact h (crcStep_injective_byte _ (foldl_crcStep_injective after heq))

/-- Feeding the high byte of the register clears it and moves the low byte up. -/
theorem crcStep_highByte (crc : BitVec 16) :
    crcStep crc (crc.extractLsb' 8 8) = (crc.extractLsb' 0 8).setWidth 16 <<< 8 := by
  have hlow : crc ^^^ ((crc.extractLsb' 8 8).setWidth 16 <<< 8) = (crc.extractLsb' 0 8).setWidth 16 := by
    apply BitVec.eq_of_getLsbD_eq
    intro k hk
    by_cases h8 : k < 8
    · simp [h8, hk]
    · have hplace : 8 + (k - 8) = k := by omega
      have hinByte : k - 8 < 8 := by omega
      simp [h8, hk, hplace, hinByte]
  have hbyte := (crc.extractLsb' 0 8).isLt
  rw [crcStep, hlow, crcShifts_of_lt]
  rw [BitVec.toNat_setWidth]
  omega

/-- Feeding the byte that stands in the high half of the register, the low half 0, leaves 0. -/
theorem crcStep_ownByte (b : Byte) : crcStep (b.setWidth 16 <<< 8) b = 0 := by
  rw [crcStep, BitVec.xor_self]
  decide

theorem foldl_checksumBytes (crc : BitVec 16) : (checksumBytes crc).foldl crcStep crc = 0 := by
  rw [checksumBytes, List.foldl_cons, crcStep_highByte, List.foldl_cons, crcStep_ownByte, List.foldl_nil]

/-! ## The operations -/

section Operations

variable {s : State}

/-- Answering with the checksum, once the register is written or left as it is. -/
theorem answerCrc_performs {l : List Piece} {v : BitVec 16} (hw : OnlyWrites l s (s.setCrc v)) :
    ∃ t, answerCrc (s.setCrc v) = .next t ∧ t.crc = v ∧ Performs l false (BitVec.ofNat 32 v.toNat) s t := by
  obtain ⟨t, ht, hp, rfl⟩ := performed_performs (flag := plainFlag) (data := zext32 v) hw ⟨rfl, rfl, rfl⟩ rfl rfl
  exact ⟨_, ht, rfl, zext32_eq v ▸ hp⟩

theorem onlyWrites_setCrc (v : BitVec 16) : OnlyWrites [.crc] s (s.setCrc v) :=
  (OnlyWrites.refl _ s).setCrc (List.mem_singleton_self _) v

theorem exec_crcinit_performs (h : Ready .M s) :
    ∃ t, exec .crcinit s = .next t ∧ t.crc = crcInitial ∧
      Performs [.crc] false (BitVec.ofNat 32 crcInitial.toNat) s t := by
  rw [exec_crcinit h]
  exact answerCrc_performs (onlyWrites_setCrc _)

theorem exec_crcupd_performs (h : Ready .M s) (byte : Byte) :
    ∃ t, exec (.crcupd byte) s = .next t ∧ t.crc = crcStep s.crc byte ∧
      Performs [.crc] false (BitVec.ofNat 32 (crcStep s.crc byte).toNat) s t := by
  rw [exec_crcupd h]
  exact answerCrc_performs (onlyWrites_setCrc _)

theorem exec_crcrd_performs (h : Ready .M s) :
    ∃ t, exec .crcrd s = .next t ∧ t.crc = s.crc ∧ Performs [] false (BitVec.ofNat 32 s.crc.toNat) s t := by
  rw [exec_crcrd h]
  exact answerCrc_performs (v := s.crc) (OnlyWrites.refl [] s)

/-- Feeding the bytes one by one and reading the register gives the fold from what the register held. -/
theorem execAll_crcupds_performs (bytes : List Byte) (h : Ready .M s) :
    ∃ t, execAll (bytes.map .crcupd ++ [.crcrd]) s = .next t ∧ t.crc = bytes.foldl crcStep s.crc ∧
      Performs [.crc] false (BitVec.ofNat 32 t.crc.toNat) s t := by
  induction bytes generalizing s with
  | nil =>
    obtain ⟨t, ht, hcrc, hp⟩ := exec_crcrd_performs h
    rw [← hcrc] at hp
    exact ⟨t, execAll_cons ht [], hcrc, ⟨hp.answer, hp.only.mono (List.nil_subset _), hp.outside⟩⟩
  | cons b bytes ih =>
    obtain ⟨u, hu, hcrc, hp⟩ := exec_crcupd_performs h b
    obtain ⟨t, ht, hfold, hp'⟩ := ih (hp.ready (by decide) h)
    rw [hcrc] at hfold
    exact ⟨t, (execAll_cons hu _).trans ht, hfold, hp.trans hp' (List.Subset.refl _) (List.Subset.refl _)⟩

end Operations

/-! ## Command frames -/

section Frames

variable {action : Byte} {payload : List Byte} {crc : BitVec 16}

/-- A frame of this action and payload that carries the checksum `crc`, whatever that is: what a changed byte makes of a frame
on the wire. -/
def frameCarrying (action : Byte) (payload : List Byte) (crc : BitVec 16) : List Byte :=
  0xAA :: frameBody action (BitVec.ofNat 16 payload.length) payload ++ checksumBytes crc

theorem wireFrame_eq (action : Byte) (payload : List Byte) : wireFrame action payload =
    frameCarrying action payload (crc16 (frameBody action (BitVec.ofNat 16 payload.length) payload)) := rfl

theorem frameBody_length (action : Byte) (length : BitVec 16) (payload : List Byte) :
    (frameBody action length payload).length = 3 + payload.length :=
  Nat.add_comm payload.length 3

theorem frameCarrying_length : (frameCarrying action payload crc).length = 6 + payload.length := by
  simp only [frameCarrying, frameBody, checksumBytes, List.length_append, List.length_cons, List.length_nil]
  omega

theorem frameLength_frameCarrying (h : payload.length ≤ 1024) :
    frameLength (frameCarrying action payload crc) = payload.length := by
  have hbytes : frameLength (frameCarrying action payload crc) =
      ((BitVec.ofNat 16 payload.length).extractLsb' 8 8).toNat * 256 +
        ((BitVec.ofNat 16 payload.length).extractLsb' 0 8).toNat := rfl
  rw [hbytes, BitVec.extractLsb'_toNat, BitVec.extractLsb'_toNat, Nat.shiftRight_eq_div_pow, Nat.shiftRight_zero,
    BitVec.toNat_ofNat]
  omega

theorem checksumBytes_injective : Function.Injective checksumBytes := by
  intro crc crc' h
  have hjoin (v : BitVec 16) : v.extractLsb' 8 8 ++ v.extractLsb' 0 8 = v := by
    rw [BitVec.extractLsb'_append_extractLsb'_eq_extractLsb' (by rfl)]
    exact BitVec.extractLsb'_eq_self
  obtain ⟨hhigh, hlow⟩ : crc.extractLsb' 8 8 = crc'.extractLsb' 8 8 ∧ crc.extractLsb' 0 8 = crc'.extractLsb' 0 8 := by
    simpa only [checksumBytes, List.cons.injEq, and_true] using h
  rw [← hjoin crc, hhigh, hlow, hjoin]

/-- With header, length field and byte count in order, validity is the checksum's alone (43_checksum.md R168). -/
theorem frameValid_frameCarrying_iff (h : payload.length ≤ 1024) :
    frameValid (frameCarrying action payload crc) = true ↔
      crc = crc16 (frameBody action (BitVec.ofNat 16 payload.length) payload) := by
  have hbody := frameBody_length action (BitVec.ofNat 16 payload.length) payload
  have hfed : ((frameCarrying action payload crc).drop 1).take (3 + payload.length) =
      frameBody action (BitVec.ofNat 16 payload.length) payload := List.take_left' hbody
  have hchecksum : (frameCarrying action payload crc).drop (4 + payload.length) = checksumBytes crc :=
    List.drop_left' (by rw [List.length_cons, hbody]; omega)
  have hheader : frameByte (frameCarrying action payload crc) 0 = 0xAA := rfl
  simp only [frameValid, frameLength_frameCarrying h, frameCarrying_length, hfed, hchecksum, hheader, h, decide_true,
    BEq.rfl, Bool.true_and, beq_iff_eq]
  exact checksumBytes_injective.eq_iff

/-- A frame whose fed bytes are those of a well-made one with a byte changed, its checksum the old one, is not valid. -/
theorem frameValid_false_of_byte_ne {before after : List Byte} {b b' : Byte} (hlen : payload.length ≤ 1024) (hb : b ≠ b')
    (hold : crc = crc16 (before ++ b :: after))
    (hnew : frameBody action (BitVec.ofNat 16 payload.length) payload = before ++ b' :: after) :
    frameValid (frameCarrying action payload crc) = false := by
  rw [Bool.eq_false_iff, Ne, frameValid_frameCarrying_iff hlen, hold, hnew]
  exact crc16_ne_of_byte_ne before after hb

theorem set_action_frameCarrying (action' : Byte) :
    (frameCarrying action payload crc).set 1 action' = frameCarrying action' payload crc := rfl

theorem set_payload_frameCarrying {j : Nat} (hj : j < payload.length) (v : Byte) :
    (frameCarrying action payload crc).set (4 + j) v = frameCarrying action (payload.set j v) crc := by
  have hset : (payload ++ checksumBytes crc).set j v = payload.set j v ++ checksumBytes crc := List.set_append_left _ _ hj
  rw [frameCarrying, frameCarrying, List.length_set, Nat.add_comm]
  simp only [frameBody, List.cons_append, List.set_cons_succ, hset]

end Frames

end Sys2Proof.Machine

open Sys2Proof Sys2Proof.Laws Sys2Proof.Machine Sys2Proof.Safety

/-- Settles O19 (43_checksum.md R162, R164): the eight iterations written out are those of the byte step. -/
theorem crcupdFoldsOneByte : Obligations.CrcupdFoldsOneByte := by
  refine ⟨encodedAs_of_rowOf .B (by decide) fun _ => ?_, fun s byte u h hfirst hnext => ?_,
    fun byte => commonFaults (.crcupd byte)⟩
  · simp [rowOf, byteField_eq]
  · have hstep : crcStep s.crc byte = u 8 := by
      rw [crcStep, ← hfirst]
      exact crcShifts_of_chain fun n hn => (hnext n hn).trans (crcShift_eq_ite (u n)).symm
    obtain ⟨t, ht, hcrc, hp⟩ := exec_crcupd_performs h byte
    rw [hstep] at hcrc hp
    exact ⟨t, ht, hp, hcrc⟩

/-- Settles O21 (43_checksum.md R169 and its consequence (a)). -/
theorem crcStepIsBijective : Obligations.CrcStepIsBijective :=
  ⟨fun byte => bijective_of_injective (crcStep_injective_register byte), crcStep_injective_byte,
    fun before after _ _ h => crc16_ne_of_byte_ne before after h⟩

/-- Settles O22 (43_checksum.md R169 (b)): the register's own high byte, then its low byte, clear it. -/
theorem crcResidueIsZero : Obligations.CrcResidueIsZero := by
  intro bytes
  rw [crc16, List.foldl_append]
  exact foldl_checksumBytes (crc16 bytes)

/-- Settles O23 (43_checksum.md R160, R166), by induction on the bytes fed. -/
theorem checksumOfSequenceIsFold : Obligations.ChecksumOfSequenceIsFold := by
  refine ⟨fun s bytes h => ?_, rfl⟩
  obtain ⟨u, hu, hcrc, hp⟩ := exec_crcinit_performs h
  obtain ⟨t, ht, hfold, hp'⟩ := execAll_crcupds_performs bytes (hp.ready (by decide) h)
  rw [hcrc] at hfold
  exact ⟨t, (execAll_cons hu _).trans ht, hfold, hp.trans hp' (List.Subset.refl _) (List.Subset.refl _)⟩

/-- Settles O24 (43_checksum.md R167, R168, R169): a changed byte is one of those fed, and the checksum is the old one. -/
theorem wellMadeFrameIsValid : Obligations.WellMadeFrameIsValid := by
  refine ⟨fun action payload hlen => ?_, fun action action' payload hlen hne => ?_,
    fun action v payload j hlen hj hv => ?_⟩
  · rw [wireFrame_eq]
    exact ⟨(frameValid_frameCarrying_iff hlen).mpr rfl, frameCarrying_length⟩
  · rw [wireFrame_eq, set_action_frameCarrying]
    exact frameValid_false_of_byte_ne (before := []) hlen hne.symm rfl rfl
  · rw [List.getElem?_eq_getElem hj, Ne, Option.some.injEq] at hv
    have hold : payload.take j ++ payload[j] :: payload.drop (j + 1) = payload := by
      rw [← List.drop_eq_getElem_cons hj, List.take_append_drop]
    have hnew : payload.set j v = payload.take j ++ v :: payload.drop (j + 1) :=
      List.set_eq_take_append_cons_drop.trans (if_pos hj)
    have hset : (payload.set j v).length = payload.length := List.length_set
    rw [wireFrame_eq, set_payload_frameCarrying hj]
    refine frameValid_false_of_byte_ne (before := frameBody action (BitVec.ofNat 16 payload.length) (payload.take j))
      (after := payload.drop (j + 1)) (hset ▸ hlen) hv ?_ ?_
    · exact congrArg (fun p => crc16 (frameBody action (BitVec.ofNat 16 payload.length) p)) hold.symm
    · rw [hset, hnew]
      rfl

/-- Settles O18 (43_checksum.md R163). -/
theorem crcinitStartsComputation : Obligations.CrcinitStartsComputation := by
  refine ⟨encodedAs_of_rowOf .Z (by decide) fun _ => rfl, fun s h => ?_, commonFaults .crcinit⟩
  obtain ⟨t, ht, hcrc, hp⟩ := exec_crcinit_performs h
  exact ⟨t, ht, hp, hcrc⟩

/-- Settles O20 (43_checksum.md R165). -/
theorem crcrdReturnsRegister : Obligations.CrcrdReturnsRegister := by
  refine ⟨encodedAs_of_rowOf .Z (by decide) fun _ => rfl, fun s h => ?_, commonFaults .crcrd⟩
  obtain ⟨t, ht, _, hp⟩ := exec_crcrd_performs h
  exact ⟨t, ht, hp⟩
end

section
/-! PROOFS. Unit Q (44_bytequeue.md): the operations QENQ (R181), QDEQ (R184) and QLEN (R187), and that the ring with its two
pointers refines a sequence of bytes (R190). -/

namespace Sys2Proof.Machine

open Sys2Proof.Safety

/-! ## The occupancy and the content -/

section Content

variable {s : State}

/-- The occupancy as the rules write it, over the integers (44_bytequeue.md R191). -/
theorem occupancy_cast (hv : parametersValid s.cfg = true) :
    (occupancy s : Int) = ((s.qwr : Int) - s.qrd) % (2 * s.cfg.QCAP) := by
  have hq := qcap_of_valid hv
  rw [occupancy, Int.toNat_of_nonneg (Int.emod_nonneg _ (by omega)), Nat.cast_mul, Nat.cast_ofNat]

theorem content_length (hi : Inv s) : (content s).length = occupancy s := by
  have hstored : ∀ j ∈ List.range (occupancy s), (s.qmem.read ((s.qrd + j) % s.cfg.QCAP)).isSome = true :=
    fun j hj => hi.content_stored j (List.mem_range.mp hj)
  rw [content, List.filterMap_length_eq_length.mpr hstored, List.length_range]

/-- Equal pointers are the empty queue: with other pointers the oldest byte stands at the head of the content. -/
theorem content_eq_nil_iff (hi : Inv s) : content s = [] ↔ s.qwr = s.qrd := by
  constructor
  · intro h
    by_contra hn
    rw [content_popByte hi hn] at h
    cases h
  · intro h
    rw [content, occupancy_of_qwr_eq_qrd h]
    rfl

theorem SameQueue.content_eq {t : State} (h : SameQueue s t) : content t = content s :=
  content_congr h.qwr h.qrd h.cfg h.qmem

end Content

/-! ## The operations -/

section Operations

variable {s : State}

theorem exec_qenq_of_full (h : Ready .P s) (hfull : occupancy s = s.cfg.QCAP) (b : Byte) :
    exec (.qenq b) s = .next (s.respond (performedResponse false 0)) :=
  (ExecOutcome.enqFull (i := .qenq b) h b rfl hfull).exec_eq

theorem exec_qenq_of_not_full (h : Ready .P s) (hn : occupancy s ≠ s.cfg.QCAP) (b : Byte) :
    exec (.qenq b) s = .next ((pushByte b s).respond (performedResponse true 0)) :=
  (ExecOutcome.enq (i := .qenq b) h b rfl hn).exec_eq

theorem exec_qdeq_of_empty (h : Ready .M s) (he : s.qwr = s.qrd) :
    exec .qdeq s = .next (s.respond (performedResponse false 0)) :=
  (ExecOutcome.deqEmpty (i := .qdeq) h rfl he).exec_eq

theorem exec_qdeq_of_nonempty (h : Ready .M s) (hn : s.qwr ≠ s.qrd) :
    exec .qdeq s =
      .next ((popByte s).2.respond (performedResponse true (BitVec.ofNat 32 (popByte s).1.toNat))) := by
  rw [← zext32_eq]
  exact (ExecOutcome.deq (i := .qdeq) h rfl hn).exec_eq

theorem respond_performs {l : List Piece} {u : State} (flag : Bool) (data : Word) (hw : OnlyWrites l s u)
    (ho : KeepsOutside s u) (hM : u.respM = s.respM) (hP : u.respP = s.respP) :
    Performs l flag data s (u.respond (performedResponse flag data)) := by
  obtain ⟨_, _, hp, rfl⟩ := performed_performs (flag := flag) (data := data) hw ho hM hP
  exact hp

/-- Where an operation only answers, nothing is written. -/
theorem respond_performs_nil (s : State) (flag : Bool) (data : Word) :
    Performs [] flag data s (s.respond (performedResponse flag data)) :=
  respond_performs flag data (OnlyWrites.refl [] s) ⟨rfl, rfl, rfl⟩ rfl rfl

theorem pushByte_performs (b : Byte) (s : State) :
    Performs [.qmem, .qwr] true 0 s ((pushByte b s).respond (performedResponse true 0)) :=
  respond_performs true 0 ((OnlyWrites.refl _ s).pushByte (by decide) (by decide) b) ⟨rfl, rfl, rfl⟩ rfl rfl

theorem popByte_performs (s : State) (data : Word) :
    Performs [.qrd] true data s ((popByte s).2.respond (performedResponse true data)) :=
  respond_performs true data ((OnlyWrites.refl _ s).popByte (List.mem_singleton_self _)) ⟨rfl, rfl, rfl⟩ rfl rfl

theorem pushByte_read (b : Byte) (s : State) (a : Nat) :
    (pushByte b s).qmem.read a = if a = s.qwr % s.cfg.QCAP then some b else s.qmem.read a :=
  Memory.read_write_single ..

end Operations

end Sys2Proof.Machine

open Sys2Proof Sys2Proof.Laws Sys2Proof.Machine Sys2Proof.Safety

/-- Settles O28 (44_bytequeue.md R190): storing appends to the content, removing takes its head, and the pointers say whether
there is room and whether there is a byte. -/
theorem queueRefinesSequence : Obligations.QueueRefinesSequence := by
  refine ⟨fun s b hi h hlt => ?_, fun s b hi h hfull => ?_, fun s v rest hi h hcons => ?_, fun s hi h hnil => ?_,
    fun s hi h => ?_, fun i s t hdeq henq h => ?_, content_resetBlock⟩
  · rw [content_length hi] at hlt
    exact ⟨_, exec_qenq_of_not_full h hlt.ne b, content_pushByte hi hlt.ne b, (pushByte_performs b s).answer⟩
  · rw [content_length hi] at hfull
    exact ⟨_, exec_qenq_of_full h hfull b, content_respond s _, (respond_performs_nil s false 0).answer⟩
  · have hn : s.qwr ≠ s.qrd := fun he => by
      rw [(content_eq_nil_iff hi).mpr he] at hcons
      cases hcons
    obtain ⟨rfl, rfl⟩ := List.cons.inj ((content_popByte hi hn).symm.trans hcons)
    exact ⟨_, exec_qdeq_of_nonempty h hn, content_respond _ _, (popByte_performs s _).answer⟩
  · have he : s.qwr = s.qrd := (content_eq_nil_iff hi).mp hnil
    exact ⟨_, exec_qdeq_of_empty h he, (content_respond s _).trans hnil, (respond_performs_nil s false 0).answer⟩
  · rw [content_length hi]
    exact ⟨_, exec_qlen h, content_respond s _, (respond_performs_nil s false _).answer⟩
  · exact ((exec_outcome h).sameQueue hdeq henq).content_eq

/-- Settles O25 (44_bytequeue.md R181): full is what the integers say, and the byte takes the slot of the write pointer. -/
theorem qenqStoresOrDrops : Obligations.QenqStoresOrDrops := by
  refine ⟨encodedAs_of_rowOf .B (by decide) fun _ => ?_, fun s b h hfull => ?_, fun s b h hn => ?_,
    fun b => commonFaults (.qenq b)⟩
  · simp [rowOf, byteField_eq]
  · rw [← occupancy_cast h.valid, Nat.cast_inj] at hfull
    exact ⟨_, exec_qenq_of_full h hfull b, respond_performs_nil s false 0⟩
  · rw [← occupancy_cast h.valid, Ne, Nat.cast_inj] at hn
    exact ⟨_, exec_qenq_of_not_full h hn b, pushByte_performs b s, (pushByte_read b s _).trans (if_pos rfl),
      fun a ha => (pushByte_read b s a).trans (if_neg ha), rfl⟩

/-- Settles O26 (44_bytequeue.md R184): the byte is the stored one of the slot that the read pointer designates. -/
theorem qdeqRemovesOldest : Obligations.QdeqRemovesOldest := by
  refine ⟨encodedAs_of_rowOf .Z (by decide) fun _ => rfl, fun s h he => ?_, fun s h hn => ?_, commonFaults .qdeq⟩
  · exact ⟨_, exec_qdeq_of_empty h he, respond_performs_nil s false 0⟩
  · exact ⟨_, (popByte s).1, exec_qdeq_of_nonempty h hn, popByte_performs s _,
      fun u hu => storedOrDraw_of_stored hu, rfl⟩

/-- Settles O27 (44_bytequeue.md R187, R191). -/
theorem qlenReturnsOccupancy : Obligations.QlenReturnsOccupancy := by
  refine ⟨encodedAs_of_rowOf .Z (by decide) fun _ => rfl, fun s n h hn => ?_, commonFaults .qlen⟩
  rw [← occupancy_cast h.valid, Nat.cast_inj] at hn
  rw [hn]
  exact ⟨_, exec_qlen h, respond_performs_nil s false _⟩
end

section
/-! PROOFS. The exceptions (60_exceptions.md): the cause a command raises and its code (R201, R203), what a fault writes
(R200), and the halted state (R204). -/

namespace Sys2Proof.Machine

open Sys2Proof.Laws Sys2Proof.Safety

/-! ## The cause of a live block's command -/

/-- The cause an operation raises on the port that owns it: the range checks of 60_exceptions.md R201. -/
def rangeCause (c : Config) : Instr → Option Cause
  | .pixwr idx => if c.N ≤ idx then some .pixRange else none
  | .pixrd idx => if c.N ≤ idx then some .pixRange else none
  | .filln k => if c.N < k then some .fillRange else none
  | .pulrd idx => if 24 * c.N < idx then some .pulseRange else none
  | _ => none

/-- The cause an operation raises on port `p`: the port is looked at before the range (60_exceptions.md R203). -/
def instrCause (p : Port) (c : Config) (i : Instr) : Option Cause :=
  if p = i.owner then rangeCause c i else some .illegalPort

/-- The cause a word raises on port `p` of a live block: its legality is looked at first (60_exceptions.md R203). -/
def wordCause (p : Port) (c : Config) (w : Word) : Option Cause :=
  match decode w with
  | .ok i => instrCause p c i
  | .error _ => some .illegalOp

/-- The code in the response of a live block (60_exceptions.md R201; 0 where no fault is raised). -/
def causeCode : Option Cause → BitVec 4
  | some c => c.code
  | none => 0

section Causes

variable {c : Config} {p : Port} {i : Instr} {w : Word} {s t : State}

theorem instrCause_owner (c : Config) (i : Instr) : instrCause i.owner c i = rangeCause c i := if_pos rfl

theorem instrCause_otherPort (hp : p ≠ i.owner) : instrCause p c i = some .illegalPort := if_neg hp

theorem wordCause_of_ok (hd : decode w = .ok i) (p : Port) (c : Config) : wordCause p c w = instrCause p c i := by
  rw [wordCause, hd]

theorem wordCause_of_error {why : DecodeReject} (hd : decode w = .error why) (p : Port) (c : Config) :
    wordCause p c w = some .illegalOp := by
  rw [wordCause, hd]

theorem Cause.code_ne_zero (c : Cause) : c.code ≠ 0 := by cases c <;> decide

theorem causeCode_ite (outside : Prop) [Decidable outside] (k : Cause) :
    causeCode (if outside then some k else none) = if outside then k.code else 0 := by
  split <;> rfl

/-! ## The code the table gives -/

theorem expectedCode_halted (hf : s.fault ≠ 0) (p : Port) (w : Word) : expectedCode p w s = 6 := if_pos hf

/-- A legal word's fields, as the table of causes reads them. -/
theorem fields_of_decode (hd : decode w = .ok i) :
    w.toNat / 2 ^ 28 = i.op ∧ w &&& reservedMask i.op = 0 ∧ w.toNat % 2 ^ 28 = i.operandBits := by
  obtain ⟨_, hop, hbits⟩ := decode_eq_ok_iff.mp hd
  obtain ⟨f, hrow, hclear⟩ := row_of_decode hd
  obtain ⟨_, rfl⟩ := op_format_of_rowOf hrow
  refine ⟨(opField_eq w).symm.trans hop, (reservedClear_iff w _ i.format (reservedMask_op i)).mp hclear, ?_⟩
  rw [← hbits, field, Nat.pow_zero, Nat.div_one]

theorem owner_eq_ite (i : Instr) : i.owner = if i.op = 0xD then Port.P else Port.M := by
  cases i <;> rfl

/-- No operation has one of the codes 0x0, 0xE and 0xF (30_encoding.md R87). -/
theorem op_assigned (i : Instr) : ¬ (i.op = 0x0 ∨ i.op = 0xE ∨ i.op = 0xF) := by
  cases i <;> simp [Instr.op]

/-- The table's range checks look at the operand of the word's operation. -/
theorem rangeCode_of_ok (hd : decode w = .ok i) (c : Config) :
    (if (i.op = 0x3 ∨ i.op = 0x4) ∧ c.N ≤ w.toNat % 2 ^ 12 then (3 : BitVec 4)
      else if i.op = 0x6 ∧ c.N < w.toNat % 2 ^ 12 then 4
      else if i.op = 0x7 ∧ 24 * c.N < w.toNat % 2 ^ 16 then 5 else 0) = causeCode (rangeCause c i) := by
  obtain ⟨hw, _⟩ := decode_eq_ok_iff.mp hd
  obtain ⟨_, _, hbits⟩ := fields_of_decode hd
  have operand (n x : Nat) (hn : n ≤ 28) (hx : x < 2 ^ n) (hbits : w.toNat % 2 ^ 28 = x) : w.toNat % 2 ^ n = x := by
    rw [← Nat.mod_mod_of_dvd w.toNat (Nat.pow_dvd_pow 2 hn), hbits, Nat.mod_eq_of_lt hx]
  cases i with
  | pixwr x | pixrd x | filln x =>
    rw [operand 12 x (by decide) (of_decide_eq_true hw) hbits]
    simp [Instr.op, rangeCause, causeCode_ite, Cause.code]
  | pulrd x =>
    rw [operand 16 x (by decide) (of_decide_eq_true hw) hbits]
    simp [Instr.op, rangeCause, causeCode_ite, Cause.code]
  | _ => simp [Instr.op, rangeCause, causeCode]

/-- The table of causes in its order of priority gives the code of the cause (60_exceptions.md R201, R203). -/
theorem expectedCode_live (hf : s.fault = 0) (p : Port) (w : Word) :
    expectedCode p w s = causeCode (wordCause p s.cfg w) := by
  cases hd : decode w with
  | ok i =>
    obtain ⟨hop, hclear, _⟩ := fields_of_decode hd
    rw [wordCause_of_ok hd, expectedCode, if_neg (not_not_intro hf), hop, if_neg (op_assigned i),
      if_neg (not_not_intro hclear), ← owner_eq_ite]
    by_cases hp : p = i.owner
    · rw [if_neg (not_not_intro hp), hp, instrCause_owner]
      exact rangeCode_of_ok hd s.cfg
    · rw [if_pos hp, instrCause_otherPort hp]; rfl
  | error why =>
    rw [wordCause_of_error hd, expectedCode, if_neg (not_not_intro hf), ← opField_eq]
    cases why with
    | unassignedOperation => exact if_pos ((decode_unassigned_iff w).mp hd)
    | reservedBit =>
      obtain ⟨hassigned, hset⟩ := (decode_reservedBit_iff w).mp hd
      rw [if_neg hassigned]
      exact if_pos hset

end Causes

/-! ## What a command does, by its cause -/

theorem raises_respond (c : Cause) (s : State) : Raises c s ((s.setFault c.code).respond (faultResponse c)) := by
  obtain ⟨t, ht, hr⟩ := raise_raises c s
  cases ht
  exact hr

/-- From `s` to `t` the command was answered as `cause` says: the fault raised, or, where there is no cause, a response
without a fault and FAULT still 0. -/
def AnswersCause (s t : State) : Option Cause → Prop
  | some c => Raises c s t
  | none => t.fault = 0 ∧ ∃ flag data, responseOn s.port t = some (performedResponse flag data)

section Commands

variable {p : Port} {i : Instr} {w : Word} {s t : State}

/-- Every instruction of a live block raises the fault its cause names, and none where there is no cause. -/
theorem ExecOutcome.answersCause (h : ExecOutcome i s t) (hf : s.fault = 0) :
    AnswersCause s t (instrCause s.port s.cfg i) := by
  have raised (c : Cause) (h : Ready i.owner s) (hc : rangeCause s.cfg i = some c) :
      AnswersCause s ((s.setFault c.code).respond (faultResponse c)) (instrCause s.port s.cfg i) := by
    rw [h.onPort, instrCause_owner, hc]
    exact raises_respond c s
  have done {u : State} {flag : Bool} {data : Word} (h : Ready i.owner s) (hc : rangeCause s.cfg i = none)
      (hu : u.fault = s.fault) (hp : u.port = s.port) :
      AnswersCause s (u.respond (performedResponse flag data)) (instrCause s.port s.cfg i) := by
    rw [h.onPort, instrCause_owner, hc]
    exact ⟨hu.trans hf, flag, data, responseOn_respond hp⟩
  cases h with
  | halted _ hn => exact absurd hf hn
  | otherPort _ _ hp => rw [instrCause_otherPort hp]; exact raises_respond .illegalPort s
  | pixRange h idx hi hr => rcases hi with rfl | rfl <;> exact raised .pixRange h (if_pos hr)
  | fillRange h k hi hr => subst hi; exact raised .fillRange h (if_pos hr)
  | pulseRange h idx hi hr => subst hi; exact raised .pulseRange h (if_pos hr)
  | loaded h v hi => rcases hi with ⟨_, _, _, rfl, _⟩ | ⟨_, _, _, rfl, _⟩ <;> exact done h rfl rfl rfl
  | pixwr h idx hi hr | pixrd h idx hi hr => subst hi; exact done h (if_neg (Nat.not_le_of_lt hr)) rfl rfl
  | filled h k hi hr =>
    rcases hi with rfl | ⟨rfl, _⟩
    · exact done h (if_neg (Nat.not_lt_of_le hr)) rfl rfl
    · exact done h rfl rfl rfl
  | pulrd h idx hi hr => subst hi; exact done h (if_neg (Nat.not_lt_of_le hr)) rfl rfl
  | crc h v hi => rcases hi with ⟨rfl, _⟩ | ⟨_, rfl, _⟩ | ⟨rfl, _⟩ <;> exact done h rfl rfl rfl
  | deqEmpty h hi | deq h hi | qlen h hi | enqFull h _ hi | enq h _ hi => subst hi; exact done h rfl rfl rfl

/-- Every word presented to a live block raises the fault its cause names, and none where there is no cause. -/
theorem present_answersCause (p : Port) (w : Word) (hv : parametersValid s.cfg = true) (hf : s.fault = 0) :
    ∃ t, present p w s = .next t ∧ AnswersCause (s.setPort p) t (wordCause p s.cfg w) := by
  cases hd : decode w with
  | ok i =>
    rw [present_of_ok hd, wordCause_of_ok hd]
    obtain ⟨t, ht⟩ := exec_completes (s := s.setPort p) i hv
    exact ⟨t, ht, (exec_outcome ht).answersCause hf⟩
  | error why =>
    rw [present_of_error hd, wordCause_of_error hd]
    exact rejectWord_raises (s := s.setPort p) why hv hf

/-! ## The halted state -/

/-- Every word presented to a halted block finds it halted (60_exceptions.md R204). -/
theorem present_findsHalted (p : Port) (w : Word) (hv : parametersValid s.cfg = true) (hf : s.fault ≠ 0) :
    ∃ t, present p w s = .next t ∧ FindsHalted (s.setPort p) t := by
  cases hd : decode w with
  | ok i => rw [present_of_ok hd]; exact (commonFaults i (s.setPort p) hv).1 hf
  | error why => rw [present_of_error hd]; exact rejectWord_findsHalted (s := s.setPort p) why hv hf

theorem valid_of_rejectWord {why : DecodeReject} (h : rejectWord why s = .next t) : parametersValid s.cfg = true := by
  by_contra hv
  rw [rejectWord, unlessHalted, withParameters, if_neg hv] at h
  cases h

theorem valid_of_present (h : present p w s = .next t) : parametersValid s.cfg = true := by
  cases hd : decode w with
  | ok i => rw [present_of_ok hd] at h; exact (exec_outcome h).valid
  | error why => rw [present_of_error hd] at h; exact valid_of_rejectWord (s := s.setPort p) h

/-- The port of a command is no piece of the block's state. -/
theorem OnlyWrites.of_setPort {l : List Piece} (h : OnlyWrites l (s.setPort p) t) : OnlyWrites l s t := { h with }

theorem ExecOutcome.findsHalted (h : ExecOutcome i s t) (hf : s.fault ≠ 0) : FindsHalted s t := by
  obtain ⟨u, hu, hh⟩ := (commonFaults i s h.valid).1 hf
  cases h.exec_eq.symm.trans hu
  exact hh

/-- A step of a halted block that takes a command finds it halted. -/
theorem StepOutcome.findsHalted_of_command (h : StepOutcome s t) (hf : s.fault ≠ 0)
    (hc : (takeInput s).1 = .command p w) : ∃ l n, FindsHalted (((s.setInbox l).setDraws n).setPort p) t := by
  cases h with
  | nothing h | reset h => rw [h] at hc; cases hc
  | performed p' w' l n h i _ e =>
    rw [h] at hc; cases hc
    exact ⟨l, n, e.findsHalted hf⟩
  | halted p' w' l n h _ _ _ e =>
    rw [h] at hc; cases hc
    rw [e]; exact ⟨l, n, respondHalted_findsHalted _⟩
  | illegal p' w' l n h _ _ hl => exact absurd hl hf

theorem StepOutcome.eq_of_nothing (h : StepOutcome s t) (hn : (takeInput s).1 = .nothing) : t = s := by
  cases h with
  | nothing _ e => exact e
  | reset h | performed _ _ _ _ h | halted _ _ _ _ h | illegal _ _ _ _ h => rw [h] at hn; cases hn

theorem StepOutcome.eq_resetBlock (h : StepOutcome s t) (hr : (takeInput s).1 = .reset) :
    ∃ l n, t = resetBlock ((s.setInbox l).setDraws n) := by
  cases h with
  | reset _ l n e => exact ⟨l, n, e⟩
  | nothing h | performed _ _ _ _ h | halted _ _ _ _ h | illegal _ _ _ _ h => rw [h] at hr; cases hr

end Commands

end Sys2Proof.Machine

open Sys2Proof Sys2Proof.Machine Sys2Proof.Safety

/-- Settles O36 (60_exceptions.md R201, R203): a halted block answers 6, a live one the code of the word's cause. -/
theorem faultCodeOfEveryCommand : Obligations.FaultCodeOfEveryCommand := by
  intro s p w hv
  by_cases hf : s.fault = 0
  · obtain ⟨t, ht, ha⟩ := present_answersCause p w hv hf
    rw [expectedCode_live hf, if_neg (not_not_intro hf)]
    cases hc : wordCause p s.cfg w with
    | none =>
      rw [hc] at ha
      obtain ⟨hlive, flag, data, hr⟩ := ha
      exact ⟨t, _, ht, hr, rfl, fun hne => absurd rfl hne, hlive⟩
    | some c =>
      rw [hc] at ha
      exact ⟨t, _, ht, ha.answer.own, rfl, fun _ => ⟨rfl, rfl⟩, ha.latched⟩
  · obtain ⟨t, ht, hh⟩ := present_findsHalted p w hv hf
    rw [expectedCode_halted hf, if_pos hf]
    exact ⟨t, _, ht, hh.answer.own, rfl, fun _ => ⟨rfl, rfl⟩, hh.only.fault List.not_mem_nil⟩

/-- Settles O37 (60_exceptions.md R200): only a live block's word that has a cause gets such a code, and it leaves the block
halted. -/
theorem raisedFaultWritesOnlyItsCode : Obligations.RaisedFaultWritesOnlyItsCode := by
  intro s t p w r h hr hne hne6
  have hv := valid_of_present h
  have answered {u : State} {r' : Response} (hu : present p w s = .next u) (hr' : responseOn p u = some r') :
      u = t ∧ r' = r := by
    cases h.symm.trans hu
    exact ⟨rfl, Option.some.inj (hr'.symm.trans hr)⟩
  by_cases hf : s.fault = 0
  · obtain ⟨u, hu, ha⟩ := present_answersCause p w hv hf
    cases hc : wordCause p s.cfg w with
    | none =>
      rw [hc] at ha
      obtain ⟨_, flag, data, hr'⟩ := ha
      obtain ⟨_, rfl⟩ := answered hu hr'
      exact absurd rfl hne
    | some c =>
      rw [hc] at ha
      obtain ⟨rfl, rfl⟩ := answered hu ha.answer.own
      have hv' : parametersValid u.cfg = true := by rw [ha.outside.cfg]; exact hv
      have hf' : u.fault ≠ 0 := by rw [ha.latched]; exact c.code_ne_zero
      exact ⟨hf, ha.latched, OnlyWrites.of_setPort ha.only, rfl, rfl, fun p' w' => present_findsHalted p' w' hv' hf'⟩
  · obtain ⟨u, hu, hh⟩ := present_findsHalted p w hv hf
    obtain ⟨_, rfl⟩ := answered hu hh.answer.own
    exact absurd rfl hne6

/-- Settles O38 (60_exceptions.md R204): a halted block takes nothing, or a command that finds it halted, or reset. -/
theorem haltedUntilReset : Obligations.HaltedUntilReset := by
  intro s t hf h
  have ho := step_outcome h
  refine ⟨fun hnr => ?_, fun p w hc => ?_, fun hreset => ?_⟩
  · cases ht : (takeInput s).1 with
    | nothing => rw [ho.eq_of_nothing ht]; exact OnlyWrites.refl [] s
    | reset => exact absurd ht hnr
    | command p w =>
      obtain ⟨l, n, hh⟩ := ho.findsHalted_of_command hf ht
      exact (onlyWrites_presented _ s l n p).trans hh.only
  · obtain ⟨l, n, hh⟩ := ho.findsHalted_of_command hf hc
    exact hh.answer.own
  · obtain ⟨l, n, rfl⟩ := ho.eq_resetBlock hreset
    exact ⟨rfl, content_resetBlock _, rfl, rfl, fun _ => ⟨rfl, rfl, rfl⟩⟩
end

section
/-! PROOFS. Reset as a step (70_reset_and_hazards.md R230, R231). -/

namespace Sys2Proof.Machine

/-- Reset that is the next input is performed, and the commands presented with it are dropped (70_reset_and_hazards.md
R231). -/
theorem step_reset {s : State} {onM onP : Option Word} {rest : List Input} (hv : parametersValid s.cfg = true)
    (h : s.inbox = .reset onM onP :: rest) : step s = .next (resetBlock (s.setInbox rest)) := by
  rw [step_valid hv, takeInput, h]; rfl

/-- After reset no element of an array holds a stored value (10_state.md R40). -/
theorem resetBlock_reads_none (s : State) (a : Nat) :
    (resetBlock s).pix.read a = none ∧ (resetBlock s).pulse.read a = none ∧ (resetBlock s).qmem.read a = none := by
  simp only [resetBlock_pix, resetBlock_pulse, resetBlock_qmem, Memory.read_nil, and_self]

end Sys2Proof.Machine

open Sys2Proof Sys2Proof.Machine Sys2Proof.Safety

/-- Settles O34 (70_reset_and_hazards.md R230, R231; 10_state.md R40): the step makes the block what reset makes of it. -/
theorem resetStepClearsTheBlock : Obligations.ResetStepClearsTheBlock := by
  intro s onM onP rest hv h
  exact ⟨_, step_reset hv h, resetBlock_crc _, resetBlock_qwr _, resetBlock_qrd _, resetBlock_fault _,
    resetBlock_pxWritten _, resetBlock_reads_none _, resetBlock_respM _, resetBlock_respP _, resetBlock_cfg _, rfl⟩
end
